-- ==== Sys2Proof/Word.lean ====
section
/-! DEFINITION. Word.lean: the bit-vector types of the block's words and bytes
(spec/30_encoding.md R50, R51, R55; bit 0 is the least significant, spec/00_scope.md R19). -/

namespace Sys2Proof

/-- One byte of the framebuffer, of the source memory, or of the wire (R19, R40). -/
abbrev Byte := BitVec 8

/-- A request word `q`, 128 bits, bit 0 the least significant (R50). -/
abbrev RequestWord := BitVec 128

/-- A response word `r`, 6 bits (R55). -/
abbrev ResponseWord := BitVec 6

end Sys2Proof
end

