-- ==== Sys2Proof/Syntax.lean ====
section
/-! DEFINITION. Syntax.lean: the rows of spec/opcode_table.json as one inductive, and the wire bytes the
block's framer emits (spec/30_encoding.md). -/

namespace Sys2Proof

/-- Power mode (R13, R54). -/
inductive PowerMode where
  | internal
  | external
  deriving DecidableEq, Repr, Inhabited

/-- The three pixel colours (R53): no other colour semantics exist. -/
inductive Color where
  | clear
  | set
  | invert
  deriving DecidableEq, Repr

/-- The 2-bit colour field of a request (R53): one of the three colours, or code 3, which is illegal. -/
inductive ColorCode where
  | legal (c : Color)
  | illegal
  deriving DecidableEq, Repr

/-- One constructor per row of spec/opcode_table.json.
The first seven are the request operations of R52, with the operand fields each of them uses (R50); the
field of an operation that does not use it is not here, because it is ignored.
The other eleven are the wire bytes the spec fixes: each is a byte the framer puts at one place of a frame
(R56 to R61, R87, R90, R97). -/
inductive Instr where
  /-- BEGIN, op 1 (R84). -/
  | begin (pm : PowerMode)
  /-- CLEAR, op 2 (R68). -/
  | clear
  /-- FILL, op 3 (R69). -/
  | fill
  /-- WRITE_PIXEL, op 4 (R70). -/
  | writePixel (x y : BitVec 16) (color : ColorCode)
  /-- DRAW_BITMAP, op 5 (R77). -/
  | drawBitmap (x y w h : BitVec 16) (src : BitVec 32) (color : ColorCode)
  /-- FLUSH, op 6 (R94). -/
  | flush
  /-- READ_PIXEL, op 7 (R71). -/
  | readPixel (x y : BitVec 16)
  /-- TAG_CMD: byte 0 of a command frame, `0x00` (R56, R79). -/
  | tagCmd
  /-- TAG_DATA: byte 0 of a data frame, `0x40` (R56, R80). -/
  | tagData
  /-- PAGE_SEL: command byte 1 of the page-select frame, `0xB0 | p` (R59). -/
  | pageSel (p : BitVec 4)
  /-- COL_LOW_NORMAL: command byte 2 of the page-select frame when `COL_LOW = 0x00` (R60). -/
  | colLowNormal
  /-- COL_LOW_VARIANT: command byte 2 of the page-select frame when `COL_LOW = 0x02` (R60). -/
  | colLowVariant
  /-- COL_HIGH: command byte 3 of the page-select frame, `0x10` (R60). -/
  | colHigh
  /-- MULTIPLEX_OPERAND: init group G1 byte 5, `H - 1` (R61). -/
  | multiplexOperand (hMinus1 : BitVec 7)
  /-- DISPLAY_OFFSET_VALUE: init group G2 byte 2, `0x00` (R87). -/
  | displayOffsetValue
  /-- CP_SELECT_EXTERNAL: init group G3 for `PWR = EXTERNAL`, `0x10` (R90). -/
  | cpSelectExternal
  /-- CONTRAST_128x64_INTERNAL: init group G5 byte 4 for 128x64 and INTERNAL, `0xCF` (R58). -/
  | contrast128x64Internal
  /-- CONTRAST_128x64_EXTERNAL: init group G5 byte 4 for 128x64 and EXTERNAL, `0x9F` (R58). -/
  | contrast128x64External
  deriving DecidableEq, Repr

/-- The place of a byte in a frame. A wire byte alone does not say which row of the table it is (`0x00` is
four of them); the place does, and the spec gives it for every row (the rows' notes; R56, R87, R97). -/
inductive WireSlot where
  /-- Byte 0 of every frame (R56). -/
  | tag
  /-- Command byte 1 of the page-select frame (R97). -/
  | pageSelect
  /-- Command byte 2 of the page-select frame (R97). -/
  | colLow
  /-- Command byte 3 of the page-select frame (R97). -/
  | colHigh
  /-- Byte 5 of init group G1 (R87). -/
  | multiplex
  /-- Byte 2 of init group G2 (R87). -/
  | displayOffset
  /-- Init group G3 when the power mode is EXTERNAL (R90). -/
  | chargePumpExternal
  /-- Byte 4 of init group G5 when the geometry is 128x64 (R58). -/
  | contrast128x64
  /-- Any other controller command byte: a configuration byte with no row of its own (R18, R57). -/
  | command
  /-- A pixel byte of a data frame (R96). -/
  | pixel
  deriving DecidableEq, Repr

/-- A byte the framer emits, with its place. -/
structure WireByte where
  slot : WireSlot
  byte : Byte
  deriving DecidableEq, Repr

/-- What an instruction is encoded as: a request word, or a wire byte at its place. -/
inductive Encoding where
  | request (q : RequestWord)
  | wire (b : WireByte)
  deriving DecidableEq, Repr

end Sys2Proof
end

