-- ==== Sys2Proof/Config.lean ====
section
/-! DEFINITION. Config.lean: the implementation parameters (spec/00_scope.md R6 to R18) as one record, the
values no source gives as constants without a body, and the free inputs of the block's environment
(the transport's answers, R42; the allocation result, R85). What is computed FROM a configuration
(PAGES, N_FB, the selections of R90) is in Machine/Geometry.lean. -/

namespace Sys2Proof

/-- ORIENTATION and the 2-bit register ORIENT (R15, R31). -/
inductive Orientation where
  | identity
  | rotate90
  | rotate180
  | rotate270
  deriving DecidableEq, Repr

/-- What the transport says about a frame when it is asked: `ok` or `fail` (R39), or nothing yet
(`pending`, R41). -/
inductive Answer where
  | ok
  | fail
  | pending
  deriving DecidableEq, Repr, Inhabited

/-- A row of GEOMETRY_TABLE (R11). -/
structure GeometryEntry where
  width : Nat
  height : Nat
  comPins : Byte
  contrastInternal : Byte
  contrastExternal : Byte
  deriving DecidableEq, Repr

/-- A splash blit `(x, y, src_base, w, h)` (R14). -/
structure SplashBlit where
  x : Int
  y : Int
  srcBase : Nat
  w : Int
  h : Int
  deriving DecidableEq, Repr

/-- The controller command bytes the source names without a value (R18, R57). -/
structure CommandBytes where
  displayOff : Byte
  setClockDiv : Byte
  clockDivValue : Byte
  setMultiplex : Byte
  setDisplayOffset : Byte
  setStartLine : Byte
  chargePump : Byte
  cpSelectInternal : Byte
  memoryMode : Byte
  memoryModeValue : Byte
  segRemap : Byte
  comScanDec : Byte
  setComPins : Byte
  setContrast : Byte
  setPrecharge : Byte
  prechargeExternal : Byte
  prechargeInternal : Byte
  setVcomDetect : Byte
  vcomValue : Byte
  displayAllOnResume : Byte
  normalDisplay : Byte
  deactivateScroll : Byte
  displayOn : Byte
  deriving DecidableEq, Repr, Inhabited

/-- The configuration record of one launch (R6 to R18). Every field is a parameter of the hardware: no
operation changes it. -/
structure Config where
  /-- `W` (R6). -/
  width : Nat
  /-- `H` (R6). -/
  height : Nat
  /-- `BUS_ADDR` (R9). -/
  busAddr : Byte
  /-- `BUS_CHANNEL`: opaque; the block passes it on and never reads it (R9). -/
  busChannel : Nat
  /-- `COL_LOW` (R10). -/
  colLow : Byte
  /-- `GEOMETRY_TABLE` (R11). -/
  geometryTable : List GeometryEntry
  /-- `ORIENTATION` (R15). -/
  orientation : Orientation
  /-- `SPLASH` (R14). -/
  splash : List SplashBlit
  /-- `INIT_FRAMING` (R16): the lengths, in order, of the pieces the init stream is cut into. -/
  initFraming : List Nat
  /-- `SRC_SIZE` (R17). -/
  srcSize : Nat
  /-- The command bytes of R18. -/
  commands : CommandBytes
  deriving DecidableEq, Repr

/-- `BUS_ADDR` has no value in the source (R9, 92 D21): no value is fixed. -/
opaque Config.openBusAddr : Byte
/-- `BUS_CHANNEL` is an opaque handle (R9). -/
opaque Config.openBusChannel : Nat
/-- The command bytes the source only names (R18, 92 D13, D24): no value is fixed. -/
opaque Config.openCommands : CommandBytes
/-- `com_pins` of 128x64 is not in the source (R11, 92 D14): no value is fixed. -/
opaque Config.openComPins : Byte
/-- `SRC_SIZE` is an open parameter (R17, 92 D6): no value is fixed. -/
opaque Config.openSrcSize : Nat
/-- `CONTRAST` is unspecified at reset, a draw (R26, R113). -/
opaque Config.resetContrast : Byte
/-- `PWR` is unspecified at reset, a draw (R27, R113). -/
opaque Config.resetPwr : PowerMode
/-- The result of an allocation (`ALLOC_OK`, R85), one draw per value of the counter `State.draws`. -/
opaque Config.allocOk : Nat → Bool
/-- What the transport says when the block asks about the frame it offered (R42), one draw per value of
the counter `State.draws`. -/
opaque Config.transportAnswer : Nat → Answer

/-- The configuration of `State.reset`: the panel the source names, 128x64 (R6), with the defaults the
spec gives (`COL_LOW = 0x00`, no splash, one init frame per group; R10, R14, R16), the two contrasts the
source gives (R58), and every open parameter left without a value. -/
def Config.launch : Config where
  width := 128
  height := 64
  busAddr := Config.openBusAddr
  busChannel := Config.openBusChannel
  colLow := 0x00#8
  geometryTable := [⟨128, 64, Config.openComPins, 0xCF#8, 0x9F#8⟩]
  orientation := .identity
  splash := []
  initFraming := [5, 4, 1, 4, 4, 2, 6]
  srcSize := Config.openSrcSize
  commands := Config.openCommands

end Sys2Proof
end

