-- ==== Sys2Proof/Decode.lean ====
section
/-! DEFINITION. Decode.lean: the request word's fields, the decoder, the encoder, and the rows of
spec/opcode_table.json (spec/30_encoding.md R50 to R62). -/

namespace Sys2Proof

/-! ### The request word (R50) -/

/-- `q[3:0]` (R50). -/
def qOp (q : RequestWord) : BitVec 4 := q.extractLsb' 0 4
/-- `q[5:4]` (R50). -/
def qColor (q : RequestWord) : BitVec 2 := q.extractLsb' 4 2
/-- `q[6]` (R50). -/
def qPm (q : RequestWord) : BitVec 1 := q.extractLsb' 6 1
/-- `q[7]`, reserved (R50). -/
def qReservedLo (q : RequestWord) : BitVec 1 := q.extractLsb' 7 1
/-- `q[23:8]` (R50). -/
def qX (q : RequestWord) : BitVec 16 := q.extractLsb' 8 16
/-- `q[39:24]` (R50). -/
def qY (q : RequestWord) : BitVec 16 := q.extractLsb' 24 16
/-- `q[55:40]` (R50). -/
def qW (q : RequestWord) : BitVec 16 := q.extractLsb' 40 16
/-- `q[71:56]` (R50). -/
def qH (q : RequestWord) : BitVec 16 := q.extractLsb' 56 16
/-- `q[103:72]` (R50). -/
def qSrc (q : RequestWord) : BitVec 32 := q.extractLsb' 72 32
/-- `q[127:104]`, reserved (R50). -/
def qReservedHi (q : RequestWord) : BitVec 24 := q.extractLsb' 104 24

/-- The request word with the given fields, the most significant first, and its reserved fields 0
(R50, R65). -/
def packRequest (src : BitVec 32) (h w y x : BitVec 16) (pm : BitVec 1) (color : BitVec 2)
    (op : BitVec 4) : RequestWord :=
  0#24 ++ (src ++ (h ++ (w ++ (y ++ (x ++ (0#1 ++ (pm ++ (color ++ op))))))))

/-- Colour codes (R53). -/
def colorOfCode (c : BitVec 2) : ColorCode :=
  if c = 0#2 then .legal .clear
  else if c = 1#2 then .legal .set
  else if c = 2#2 then .legal .invert
  else .illegal

/-- Colour codes, the other way (R53). -/
def codeOfColor : ColorCode → BitVec 2
  | .legal .clear => 0#2
  | .legal .set => 1#2
  | .legal .invert => 2#2
  | .illegal => 3#2

/-- Power mode code (R54). -/
def powerModeOfCode (b : BitVec 1) : PowerMode :=
  if b = 0#1 then .internal else .external

/-- Power mode code, the other way (R54). -/
def codeOfPowerMode : PowerMode → BitVec 1
  | .internal => 0#1
  | .external => 1#1

/-! ### Decoding -/

/-- Why a word decodes to no instruction. -/
inductive DecodeError where
  /-- `op` is 0 or 8 to 15 (R62 (a)). -/
  | reservedOp
  /-- `q[7]` or `q[127:104]` is not 0 (R62 (b)). -/
  | reservedBits
  /-- A wire byte that is no row of the table at its place: a controller command byte of the
  configuration, or a pixel byte (R57, R96). -/
  | unlistedByte
  deriving DecidableEq, Repr

/-- The operation a request word asks for (R52), with the operand fields it uses (R50), or the check of R62 that
refuses it. Colour code 3 is an operand value of WRITE_PIXEL and DRAW_BITMAP: those two operations fault
on it themselves (R62 (c), R63 step 2). -/
def decodeRequest (q : RequestWord) : Except DecodeError Instr :=
  if qReservedLo q ≠ 0#1 ∨ qReservedHi q ≠ 0#24 then .error .reservedBits
  else if qOp q = 1#4 then .ok (.begin (powerModeOfCode (qPm q)))
  else if qOp q = 2#4 then .ok .clear
  else if qOp q = 3#4 then .ok .fill
  else if qOp q = 4#4 then .ok (.writePixel (qX q) (qY q) (colorOfCode (qColor q)))
  else if qOp q = 5#4 then
    .ok (.drawBitmap (qX q) (qY q) (qW q) (qH q) (qSrc q) (colorOfCode (qColor q)))
  else if qOp q = 6#4 then .ok .flush
  else if qOp q = 7#4 then .ok (.readPixel (qX q) (qY q))
  else .error .reservedOp

/-- The row of the table a wire byte is, at its place in a frame (R56 to R61, R87, R90, R97). -/
def decodeWire (b : WireByte) : Except DecodeError Instr :=
  match b.slot with
  | .tag =>
    if b.byte = 0x00#8 then .ok .tagCmd
    else if b.byte = 0x40#8 then .ok .tagData
    else .error .unlistedByte
  | .pageSelect =>
    if b.byte.extractLsb' 4 4 = 0xB#4 then .ok (.pageSel (b.byte.extractLsb' 0 4))
    else .error .unlistedByte
  | .colLow =>
    if b.byte = 0x00#8 then .ok .colLowNormal
    else if b.byte = 0x02#8 then .ok .colLowVariant
    else .error .unlistedByte
  | .colHigh => if b.byte = 0x10#8 then .ok .colHigh else .error .unlistedByte
  | .multiplex =>
    if b.byte.extractLsb' 7 1 = 0#1 then .ok (.multiplexOperand (b.byte.extractLsb' 0 7))
    else .error .unlistedByte
  | .displayOffset => if b.byte = 0x00#8 then .ok .displayOffsetValue else .error .unlistedByte
  | .chargePumpExternal => if b.byte = 0x10#8 then .ok .cpSelectExternal else .error .unlistedByte
  | .contrast128x64 =>
    if b.byte = 0xCF#8 then .ok .contrast128x64Internal
    else if b.byte = 0x9F#8 then .ok .contrast128x64External
    else .error .unlistedByte
  | .command => .error .unlistedByte
  | .pixel => .error .unlistedByte

/-- The decoder. -/
def decode : Encoding → Except DecodeError Instr
  | .request q => decodeRequest q
  | .wire b => decodeWire b

/-! ### Encoding -/

/-- `PAGE_SEL(p) = 0xB0 | p` (R59). -/
def pageSelByte (p : BitVec 4) : Byte := 0xB0#8 ||| p.setWidth 8

/-- The words of an instruction: a request word with every unused and reserved field 0 (R50, R52, R65), or
the wire byte at its place. -/
def encode : Instr → Encoding
  | .begin pm => .request (packRequest 0 0 0 0 0 (codeOfPowerMode pm) 0 1)
  | .clear => .request (packRequest 0 0 0 0 0 0 0 2)
  | .fill => .request (packRequest 0 0 0 0 0 0 0 3)
  | .writePixel x y c => .request (packRequest 0 0 0 y x 0 (codeOfColor c) 4)
  | .drawBitmap x y w h src c => .request (packRequest src h w y x 0 (codeOfColor c) 5)
  | .flush => .request (packRequest 0 0 0 0 0 0 0 6)
  | .readPixel x y => .request (packRequest 0 0 0 y x 0 0 7)
  | .tagCmd => .wire ⟨.tag, 0x00#8⟩
  | .tagData => .wire ⟨.tag, 0x40#8⟩
  | .pageSel p => .wire ⟨.pageSelect, pageSelByte p⟩
  | .colLowNormal => .wire ⟨.colLow, 0x00#8⟩
  | .colLowVariant => .wire ⟨.colLow, 0x02#8⟩
  | .colHigh => .wire ⟨.colHigh, 0x10#8⟩
  | .multiplexOperand v => .wire ⟨.multiplex, v.setWidth 8⟩
  | .displayOffsetValue => .wire ⟨.displayOffset, 0x00#8⟩
  | .cpSelectExternal => .wire ⟨.chargePumpExternal, 0x10#8⟩
  | .contrast128x64Internal => .wire ⟨.contrast128x64, 0xCF#8⟩
  | .contrast128x64External => .wire ⟨.contrast128x64, 0x9F#8⟩

/-! ### The opcode table (spec/opcode_table.json) -/

/-- A row of the opcode table: how many bits it gives, and its match and mask. -/
structure TableRow where
  nbits : Nat
  matchBits : Nat
  mask : Nat
  deriving DecidableEq, Repr

/-- The mask of the seven request rows: `op` and the reserved bits. -/
def requestMask : Nat := 0xFFFFFF0000000000000000000000008F

/-- The table's row of an instruction. -/
def tableRow : Instr → TableRow
  | .begin _ => ⟨128, 0x1, requestMask⟩
  | .clear => ⟨128, 0x2, requestMask⟩
  | .fill => ⟨128, 0x3, requestMask⟩
  | .writePixel _ _ _ => ⟨128, 0x4, requestMask⟩
  | .drawBitmap _ _ _ _ _ _ => ⟨128, 0x5, requestMask⟩
  | .flush => ⟨128, 0x6, requestMask⟩
  | .readPixel _ _ => ⟨128, 0x7, requestMask⟩
  | .tagCmd => ⟨8, 0x00, 0xFF⟩
  | .tagData => ⟨8, 0x40, 0xFF⟩
  | .pageSel _ => ⟨8, 0xB0, 0xF0⟩
  | .colLowNormal => ⟨8, 0x00, 0xFF⟩
  | .colLowVariant => ⟨8, 0x02, 0xFF⟩
  | .colHigh => ⟨8, 0x10, 0xFF⟩
  | .multiplexOperand _ => ⟨8, 0x00, 0x80⟩
  | .displayOffsetValue => ⟨8, 0x00, 0xFF⟩
  | .cpSelectExternal => ⟨8, 0x10, 0xFF⟩
  | .contrast128x64Internal => ⟨8, 0xCF, 0xFF⟩
  | .contrast128x64External => ⟨8, 0x9F, 0xFF⟩

/-- How many bits an encoding has. -/
def Encoding.nbits : Encoding → Nat
  | .request _ => 128
  | .wire _ => 8

/-- The bits of an encoding as a number, bit 0 the least significant. -/
def Encoding.bits : Encoding → Nat
  | .request q => q.toNat
  | .wire b => b.byte.toNat

/-- An encoding has the bits its row fixes. -/
def Encoding.fits (e : Encoding) (r : TableRow) : Prop :=
  e.nbits = r.nbits ∧ e.bits &&& r.mask = r.matchBits

/-! ### A word of the table without its place -/

/-- The place a bare wire byte is read at. The table numbers a wire row's bits only, and several rows have
the same byte; the place is what tells them apart (DESIGN CHOICE, assumption 7): the tags first, then the
page-select group, then the contrasts, then the multiplex operand. -/
def placeOfByte (b : Byte) : WireSlot :=
  if b = 0x00#8 ∨ b = 0x40#8 then .tag
  else if b = 0x02#8 then .colLow
  else if b = 0x10#8 then .colHigh
  else if b = 0xCF#8 ∨ b = 0x9F#8 then .contrast128x64
  else if b.extractLsb' 4 4 = 0xB#4 then .pageSelect
  else if b.extractLsb' 7 1 = 0#1 then .multiplex
  else .command

/-- The encoding a bare word of the table stands for: 8 bits are a wire byte, more are a request word. -/
def encodingOfWord (nbits w : Nat) : Encoding :=
  if nbits ≤ 8 then .wire ⟨placeOfByte (BitVec.ofNat 8 w), BitVec.ofNat 8 w⟩
  else .request (BitVec.ofNat 128 w)

/-- The instruction the decoder reads from a word of the table. -/
def decodeTableWord (nbits w : Nat) : Option Instr :=
  match decode (encodingOfWord nbits w) with
  | .ok i => some i
  | .error _ => none

end Sys2Proof
end

