-- ==== Sys2Proof/Machine/State.lean ====
section
/-! DEFINITION. Machine/State.lean: everything the spec gives the block (spec/10_state.md R23 to R32, the trace of R41,
the source memory of R38, the request port of R116), the model's own fields (the bytes between framer and
transport, the inputs already given, the draw counter), the reset state (R113), and the reasons to stop. -/

namespace Sys2Proof.Machine

/-- A byte memory: its cells at strictly rising addresses, none holding `0x00`, which is what an unlisted
address reads as (assumption 9; the form is `Memory.wf`). -/
abbrev Memory := List Host.Cell

/-- `LC`, the lifecycle state (R24). -/
inductive Lifecycle where
  | uninitialized
  | bufferAllocated
  | handshakeSent
  | displayOn
  | failed
  deriving DecidableEq, Repr

/-- The operations with more than one step (R28): every other one goes from IDLE back to IDLE in one step. -/
inductive SeqOp where
  | begin
  | flush
  deriving DecidableEq, Repr

/-- `SEQ`, the sequencer position (R28): idle, or the next step `k` of an operation's step list. -/
inductive Seq where
  | idle
  | running (op : SeqOp) (k : Nat)
  deriving DecidableEq, Repr

/-- `FAULT_CODE` (R102): codes 0 to 6. -/
inductive FaultCode where
  | none
  | illegalOp
  | illegalColor
  | notReady
  | beginState
  | bus
  | srcRange
  deriving DecidableEq, Repr

/-- One entry of the trace: a frame offered to the transport and its answer (R41), with the channel handle the block
passes along (R9, assumption 19). -/
structure BusWrite where
  addr : Byte
  channel : Nat
  frame : List Byte
  answer : Answer
  deriving DecidableEq, Repr

/-- The machine. -/
structure State where
  /-- The configuration of this launch (R6 to R18); no step changes it. -/
  cfg : Config
  /-- `LC` (R24). -/
  lc : Lifecycle
  /-- `FB` (R25, R33). -/
  fb : Memory
  /-- `FB_VALID` (R25). -/
  fbValid : Bool
  /-- `CONTRAST` (R26). -/
  contrast : Byte
  /-- `PWR` (R27). -/
  pwr : PowerMode
  /-- `SEQ` (R28). -/
  seq : Seq
  /-- `FAULT_VALID` (R29). -/
  faultValid : Bool
  /-- `FAULT_CODE` (R29). -/
  faultCode : FaultCode
  /-- `BUSY` (R30). -/
  busy : Bool
  /-- `ORIENT` (R31), hardwired to IDENTITY: no step writes it. -/
  orient : Orientation
  /-- The trace, oldest entry first (R41). -/
  trace : List BusWrite
  /-- `SRC`, the source memory, a launch input no step changes (R38). -/
  src : Memory
  /-- The request port: requests the host has offered and the block has not accepted, in order (R116). -/
  offered : List RequestWord
  /-- The responses issued so far, oldest first (R55). -/
  responses : List ResponseWord
  /-- Model's own: the bytes the current `Send` has yet to put in its frame (R79, R80). -/
  emit : List WireByte
  /-- Model's own: the frame the framer is building (R79). -/
  frame : List Byte
  /-- Model's own: allocation results already given by the environment (R85). -/
  allocs : List Bool
  /-- Model's own: what the transport will say the next times it is asked (R42). -/
  answers : List Answer
  /-- Model's own: how many free values have been drawn from Config. -/
  draws : Nat
  deriving DecidableEq, Repr

/-- Why a step ends the run. -/
inductive Fault where
  /-- Raised by `step` alone, when a fault is recorded: "From then on the block accepts no request", and
  it "takes no step until reset" (R103, R107). Safe: the hardware takes no step either. -/
  | halted (code : FaultCode)
  /-- Raised by the sequencer alone, when SEQ stands past the end of its step list (R28): no run reaches such a
  state. Safe: the spec gives such a state no step. -/
  | offStepList
  deriving DecidableEq, Repr

/-- Why a step has no meaning. -/
inductive Refusal where
  /-- Not modelled yet. No arm answers so. Safe. -/
  | notModelled (mnemonic : String)
  /-- Raised by `step` for a configuration that is not well-formed: "An ill-formed one is refused, not given
  a meaning" (R12). Safe. -/
  | illFormedConfiguration
  /-- Raised by BEGIN's steps when GEOMETRY_TABLE lacks `(W, H)` (R12 (b), R100): `step` never reaches it, since
  it refuses such a configuration first. Safe. -/
  | unsupportedGeometry
  deriving DecidableEq, Repr

/-- The machine after reset (R113), for the launch configuration. The request port and the source memory are empty
until the host and the launch fill them (assumptions 2 and 9). -/
def State.reset : State where
  cfg := Config.launch
  lc := .uninitialized
  fb := []
  fbValid := false
  contrast := Config.resetContrast
  pwr := Config.resetPwr
  seq := .idle
  faultValid := false
  faultCode := .none
  busy := false
  orient := .identity
  trace := []
  src := []
  offered := []
  responses := []
  emit := []
  frame := []
  allocs := []
  answers := []
  draws := 0

end Sys2Proof.Machine
end

