-- ==== Sys2Proof/Machine/Flags.lean ====
section
/-! DEFINITION. Machine/Flags.lean: the block has no condition codes (spec/10_state.md R32); its status values are
the codes below and the response word (spec/30_encoding.md R55, spec/60_exceptions.md R102). -/

namespace Sys2Proof.Machine

/-- `LC`'s 3-bit encoding (R24). -/
def lifecycleBits : Lifecycle → BitVec 3
  | .uninitialized => 0
  | .bufferAllocated => 1
  | .handshakeSent => 2
  | .displayOn => 3
  | .failed => 4

/-- `ORIENT`'s 2-bit encoding (R31). -/
def orientationBits : Orientation → BitVec 2
  | .identity => 0
  | .rotate90 => 1
  | .rotate180 => 2
  | .rotate270 => 3

/-- `FAULT_CODE`'s 4-bit encoding (R102). -/
def faultBits : FaultCode → BitVec 4
  | .none => 0
  | .illegalOp => 1
  | .illegalColor => 2
  | .notReady => 3
  | .beginState => 4
  | .bus => 5
  | .srcRange => 6

/-- The response word: `value` in bit 5, `code` in bits 4:1, `status` in bit 0 (R55). -/
def responseWord (status : BitVec 1) (code : BitVec 4) (value : BitVec 1) : ResponseWord :=
  value ++ (code ++ status)

/-- The response of an operation that ends without a fault (R55). -/
def okWord (value : Bool) : ResponseWord := responseWord 0 0 (BitVec.ofBool value)

/-- The response of a fault: `status = 1`, the code, `value = 0` (R55, R103). -/
def faultWord (c : FaultCode) : ResponseWord := responseWord 1 (faultBits c) 0

/-- `status` of a response (R55). -/
def responseStatus (r : ResponseWord) : BitVec 1 := r.extractLsb' 0 1
/-- `code` of a response (R55). -/
def responseCode (r : ResponseWord) : BitVec 4 := r.extractLsb' 1 4
/-- `value` of a response (R55). -/
def responseValue (r : ResponseWord) : BitVec 1 := r.extractLsb' 5 1

end Sys2Proof.Machine
end

