-- ==== Sys2Proof/Machine/Geometry.lean ====
section
/-! DEFINITION. Machine/Geometry.lean: what is computed from a configuration (spec/00_scope.md R7, R8, R11;
spec/43_init_sequencer.md R90; spec/30_encoding.md R60, R61). -/

namespace Sys2Proof.Machine

/-- `PAGES = (H + 7) div 8` (R7). -/
def pages (c : Config) : Nat := (c.height + 7) / 8

/-- `N_FB = W * PAGES` (R8). -/
def nFb (c : Config) : Nat := c.width * pages c

/-- The row of GEOMETRY_TABLE at `(W, H)` (R11). -/
def geometry (c : Config) : Option GeometryEntry :=
  c.geometryTable.find? fun e => decide (e.width = c.width ∧ e.height = c.height)

/-- `Contrast(W, H, PWR)` (R90). -/
def contrastFor (g : GeometryEntry) : PowerMode → Byte
  | .internal => g.contrastInternal
  | .external => g.contrastExternal

/-- `CP_SELECT_EXTERNAL` (R57, R90): the source gives it. -/
def cpSelectExternalByte : Byte := 0x10#8

/-- `CPSelect(PWR)` (R90). -/
def cpSelect (c : Config) : PowerMode → Byte
  | .internal => c.commands.cpSelectInternal
  | .external => cpSelectExternalByte

/-- `Precharge(PWR)` (R90). -/
def precharge (c : Config) : PowerMode → Byte
  | .internal => c.commands.prechargeInternal
  | .external => c.commands.prechargeExternal

/-- The multiplex operand `H - 1`, as an unsigned byte (R61). -/
def multiplexByte (c : Config) : Byte := BitVec.ofNat 8 (c.height - 1)

/-- The display offset operand (R57, R87). -/
def displayOffsetByte : Byte := 0x00#8

/-- `COL_HIGH` (R60). -/
def colHighByte : Byte := 0x10#8

/-- `PAGE_SEL(p)` of a page index (R59). -/
def pageSelOf (p : Nat) : Byte := pageSelByte (BitVec.ofNat 4 p)

end Sys2Proof.Machine
end

