-- ==== Sys2Proof/Machine/Operands.lean ====
section
/-! DEFINITION. Machine/Operands.lean: operand assembly (spec/30_encoding.md R51), the pixel addressing law
(spec/20_memory.md R33 to R35), the colour law (spec/40_framebuffer.md R70, R72, R73) and the source bitmap's bit
order (spec/41_bitmap.md R77). -/

namespace Sys2Proof.Machine

/-- `sext_16` of a coordinate or size field (R51). -/
def coord (v : BitVec 16) : Int := v.toInt

/-- `zext_32` of the source address field (R51). -/
def srcAddress (v : BitVec 32) : Nat := v.toNat

/-- `Orient(x, y)` (R73): the source's rotation is "always skipped", so it is the identity whatever the
register holds. -/
def orientXY : Orientation → Int → Int → Int × Int
  | .identity, x, y => (x, y)
  | .rotate90, x, y => (x, y)
  | .rotate180, x, y => (x, y)
  | .rotate270, x, y => (x, y)

/-- The range test on the signed coordinates (R70). -/
def inRange (c : Config) (x y : Int) : Bool :=
  decide (0 ≤ x) && decide (x < c.width) && decide (0 ≤ y) && decide (y < c.height)

/-- The byte index of `Addr(x, y)`, for an in-range pixel (R35). -/
def pixelIndex (c : Config) (x y : Int) : Nat := x.toNat + (y.toNat / 8) * c.width

/-- The bit index of `Addr(x, y)`, for an in-range pixel: `y & 7` (R35). -/
def pixelBit (y : Int) : Nat := y.toNat % 8

/-- A colour applied to bit `b` of a byte (R70). -/
def applyColor (c : Color) (v : Byte) (b : Nat) : Byte :=
  match c with
  | .set => v ||| (1#8 <<< b)
  | .clear => v &&& ~~~(1#8 <<< b)
  | .invert => v ^^^ (1#8 <<< b)

/-- The colour law on one bit (R72). -/
def colorBit (c : Color) (v : Bool) : Bool :=
  match c with
  | .set => true
  | .clear => false
  | .invert => !v

/-- `byteWidth = ceil(w / 8)` (R77), for a positive width. -/
def byteWidth (w : Nat) : Nat := (w + 7) / 8

/-- Column `i`'s bit of its source byte: the most significant bit first (R77). -/
def srcBit (b : Byte) (i : Nat) : Bool := b.getLsbD (7 - i % 8)

end Sys2Proof.Machine
end

