-- ==== Sys2Proof/Machine/Ops.lean ====
section
/-! DEFINITION. Machine/Ops.lean: the named operations over memory, the ports and the registers, and raising a fault
(spec/00_scope.md R21; spec/20_memory.md; spec/60_exceptions.md R103). -/

namespace Sys2Proof.Machine

/-! ### Byte memories -/

/-- The canonical form: addresses strictly rise, and no cell holds `0x00`. -/
def Memory.wf : Memory → Bool
  | [] => true
  | (a, v) :: r => decide (v ≠ 0#8) && r.all (fun c => decide (a < c.1)) && Memory.wf r

/-- The byte at an address; an unlisted address reads as `0x00` (assumption 9). -/
def Memory.read : Memory → Nat → Byte
  | [], _ => 0#8
  | (b, u) :: r, a => if a = b then u else Memory.read r a

/-- Write one byte, keeping the canonical form. -/
def Memory.write : Memory → Nat → Byte → Memory
  | [], a, v => if v = 0#8 then [] else [(a, v)]
  | (b, u) :: r, a, v =>
    if a < b then (if v = 0#8 then (b, u) :: r else (a, v) :: (b, u) :: r)
    else if a = b then (if v = 0#8 then r else (a, v) :: r)
    else (b, u) :: Memory.write r a v

/-- The cells `a, a+1, ..., a+n-1`, each holding `v`. -/
def Memory.run (v : Byte) : Nat → Nat → Memory
  | _, 0 => []
  | a, n + 1 => (a, v) :: Memory.run v (a + 1) n

/-- Write `v` at every address below `n` (R68, R69). -/
def Memory.fill (n : Nat) (v : Byte) (m : Memory) : Memory :=
  (if v = 0#8 then [] else Memory.run v 0 n) ++ m.filter (fun c => decide (n ≤ c.1))

/-- Every listed address is below `n`. -/
def Memory.below (m : Memory) (n : Nat) : Bool := m.all fun c => decide (c.1 < n)

/-- `SrcRead(a)` (R38): the byte, or nothing at or above `SRC_SIZE`. -/
def srcRead (s : State) (a : Nat) : Option Byte :=
  if a < s.cfg.srcSize then some (Memory.read s.src a) else none

/-! ### Pixels -/

/-- `WritePixelCore` (R70), on the framebuffer's bytes: the addressed bit takes the colour, an out-of-range pixel
changes nothing. -/
def writePixelCore (c : Config) (o : Orientation) (fb : Memory) (x y : Int) (color : Color) : Memory :=
  let p := orientXY o x y
  if inRange c p.1 p.2 then
    let idx := pixelIndex c p.1 p.2
    Memory.write fb idx (applyColor color (Memory.read fb idx) (pixelBit p.2))
  else fb

/-- READ_PIXEL's bit: 0 out of range (R71). -/
def readPixelCore (c : Config) (o : Orientation) (fb : Memory) (x y : Int) : Bool :=
  let p := orientXY o x y
  if inRange c p.1 p.2 then (Memory.read fb (pixelIndex c p.1 p.2)).getLsbD (pixelBit p.2) else false

/-! ### Responses and faults -/

/-- Issue a response word and clear BUSY (R55). -/
def respond (r : ResponseWord) (s : State) : State :=
  { s with responses := s.responses ++ [r], busy := false }

/-- `raise Fault(c)` (R103): record the fault, leave the operation, respond with it; nothing else changes. -/
def raiseFault (c : FaultCode) (s : State) : State :=
  respond (faultWord c) { s with faultValid := true, faultCode := c, seq := .idle }

/-- The common precondition of every operation but BEGIN (R67): the operation's next state, or E_NOT_READY. -/
def requireReady (s t : State) : Host.Outcome State Fault Refusal :=
  if s.lc = .displayOn then .next t else .next (raiseFault .notReady s)

/-! ### The environment's free inputs -/

/-- The allocation's result (R85): the next one the environment has given, else a draw. -/
def allocResult (s : State) : Bool :=
  match s.allocs with
  | b :: _ => b
  | [] => Config.allocOk s.draws

/-- Take the allocation's result. -/
def takeAlloc (s : State) : State :=
  match s.allocs with
  | _ :: r => { s with allocs := r }
  | [] => { s with draws := s.draws + 1 }

/-- What the transport says now (R42): the next thing it is known to say, else a draw. -/
def transportSays (s : State) : Answer :=
  match s.answers with
  | a :: _ => a
  | [] => Config.transportAnswer s.draws

/-- Take what the transport says. -/
def takeAnswer (s : State) : State :=
  match s.answers with
  | _ :: r => { s with answers := r }
  | [] => { s with draws := s.draws + 1 }

/-! ### The bus port -/

/-- The frame offered last is not answered yet (R41, R42). -/
def awaiting (s : State) : Bool :=
  match s.trace.getLast? with
  | some e => decide (e.answer = .pending)
  | none => false

/-- The trace with the last entry's answer recorded. -/
def answerLast (a : Answer) : List BusWrite → List BusWrite
  | [] => []
  | [e] => [{ e with answer := a }]
  | e :: f :: r => e :: answerLast a (f :: r)

/-- `BusWrite(BUS_ADDR, frame)` as far as the offer: the frame built is the trace's new, pending entry, and
the framer releases it (R39, R41). `BUS_CHANNEL` is passed along, unread (R9). -/
def busOffer (s : State) : State :=
  { s with trace := s.trace ++ [⟨s.cfg.busAddr, s.cfg.busChannel, s.frame, .pending⟩], frame := [] }

/-- Record the transport's answer to the pending frame (R41). -/
def busAnswer (a : Answer) (s : State) : State :=
  { s with trace := answerLast a s.trace }

/-! ### The framer -/

/-- The framer opens a frame with its tag (R56, R79, R80). -/
def openFrame (tag : Byte) (s : State) : State := { s with frame := [tag] }

/-- The framer copies one byte after the tag (R79, R80). -/
def appendByte (b : Byte) (s : State) : State := { s with frame := s.frame ++ [b] }

end Sys2Proof.Machine
end

