-- ==== Sys2Proof/Machine/Framer.lean ====
section
/-! DEFINITION. Machine/Framer.lean: command frames, data frames and the meanings of the wire bytes the table lists
(spec/42_framer.md R79 to R83, spec/30_encoding.md R56 to R61). The framer builds a frame a byte at a
time; each byte the table lists is an instruction of the framer. -/

namespace Sys2Proof.Machine

/-- `CmdFrame` (R79): the tag `0x00`, then the command bytes. -/
def cmdFrame (bytes : List WireByte) : List WireByte := ⟨.tag, 0x00#8⟩ :: bytes

/-- `DataFrame` (R80): the tag `0x40`, then the pixel bytes. -/
def dataFrame (bytes : List Byte) : List WireByte :=
  ⟨.tag, 0x40#8⟩ :: bytes.map (fun b => ⟨.pixel, b⟩)

/-- The bytes of a frame on the wire (R40: list order, the tag first). -/
def frameBytes (f : List WireByte) : List Byte := f.map (·.byte)

/-- TAG_CMD opens a command frame (R56, R79). -/
def execTagCmd (s : State) : Host.Outcome State Fault Refusal := .next (openFrame 0x00#8 s)

/-- TAG_DATA opens a data frame (R56, R80). -/
def execTagData (s : State) : Host.Outcome State Fault Refusal := .next (openFrame 0x40#8 s)

/-- PAGE_SEL puts `0xB0 | p` in the frame (R59, R97). -/
def execPageSel (p : BitVec 4) (s : State) : Host.Outcome State Fault Refusal :=
  .next (appendByte (pageSelByte p) s)

/-- COL_LOW_NORMAL puts `0x00` in the frame (R60). -/
def execColLowNormal (s : State) : Host.Outcome State Fault Refusal := .next (appendByte 0x00#8 s)

/-- COL_LOW_VARIANT puts `0x02` in the frame (R60). -/
def execColLowVariant (s : State) : Host.Outcome State Fault Refusal := .next (appendByte 0x02#8 s)

/-- COL_HIGH puts `0x10` in the frame (R60). -/
def execColHigh (s : State) : Host.Outcome State Fault Refusal := .next (appendByte colHighByte s)

/-- MULTIPLEX_OPERAND puts `H - 1` in the frame (R61). -/
def execMultiplexOperand (v : BitVec 7) (s : State) : Host.Outcome State Fault Refusal :=
  .next (appendByte (v.setWidth 8) s)

/-- DISPLAY_OFFSET_VALUE puts `0x00` in the frame (R87). -/
def execDisplayOffsetValue (s : State) : Host.Outcome State Fault Refusal :=
  .next (appendByte displayOffsetByte s)

/-- CP_SELECT_EXTERNAL puts `0x10` in the frame (R90). -/
def execCpSelectExternal (s : State) : Host.Outcome State Fault Refusal :=
  .next (appendByte cpSelectExternalByte s)

/-- CONTRAST_128x64_INTERNAL puts `0xCF` in the frame (R58). -/
def execContrast128x64Internal (s : State) : Host.Outcome State Fault Refusal :=
  .next (appendByte 0xCF#8 s)

/-- CONTRAST_128x64_EXTERNAL puts `0x9F` in the frame (R58). -/
def execContrast128x64External (s : State) : Host.Outcome State Fault Refusal :=
  .next (appendByte 0x9F#8 s)

end Sys2Proof.Machine
end

