-- ==== Sys2Proof/Machine/Begin.lean ====
section
/-! DEFINITION. Machine/Begin.lean: the init command stream and BEGIN (spec/43_init_sequencer.md). BEGIN's steps after
the allocation are the sequencer's (Machine/Sequencer.lean). -/

namespace Sys2Proof.Machine

/-- The place of the charge-pump select byte: it is the table's row only for EXTERNAL (R90). -/
def cpSlot : PowerMode → WireSlot
  | .internal => .command
  | .external => .chargePumpExternal

/-- The place of the contrast byte: it is one of the table's rows only for 128x64 (R58). -/
def contrastSlot (c : Config) : WireSlot :=
  if c.width = 128 ∧ c.height = 64 then .contrast128x64 else .command

/-- A controller command byte that is a configuration parameter (R18). -/
def commandByte (b : Byte) : WireByte := ⟨.command, b⟩

/-- `InitStream(PWR)` (R87): groups G1 to G7. The contrast byte is the CONTRAST register's value (R90). -/
def initStream (c : Config) (g : GeometryEntry) (pwr : PowerMode) (contrast : Byte) : List WireByte :=
  [commandByte c.commands.displayOff, commandByte c.commands.setClockDiv,
    commandByte c.commands.clockDivValue, commandByte c.commands.setMultiplex,
    ⟨.multiplex, multiplexByte c⟩] ++
  [commandByte c.commands.setDisplayOffset, ⟨.displayOffset, displayOffsetByte⟩,
    commandByte c.commands.setStartLine, commandByte c.commands.chargePump] ++
  [⟨cpSlot pwr, cpSelect c pwr⟩] ++
  [commandByte c.commands.memoryMode, commandByte c.commands.memoryModeValue,
    commandByte c.commands.segRemap, commandByte c.commands.comScanDec] ++
  [commandByte c.commands.setComPins, commandByte g.comPins,
    commandByte c.commands.setContrast, ⟨contrastSlot c, contrast⟩] ++
  [commandByte c.commands.setPrecharge, commandByte (precharge c pwr)] ++
  [commandByte c.commands.setVcomDetect, commandByte c.commands.vcomValue,
    commandByte c.commands.displayAllOnResume, commandByte c.commands.normalDisplay,
    commandByte c.commands.deactivateScroll, commandByte c.commands.displayOn]

/-- A stream cut into contiguous pieces of the given lengths (R88). -/
def cutStream (stream : List WireByte) : List Nat → List (List WireByte)
  | [] => []
  | n :: r => stream.take n :: cutStream (stream.drop n) r

/-- The init frames (R88): one command frame per piece of INIT_FRAMING, in order. -/
def initFrames (c : Config) (g : GeometryEntry) (pwr : PowerMode) (contrast : Byte) :
    List (List WireByte) :=
  (cutStream (initStream c g pwr contrast) c.initFraming).map cmdFrame

/-- BEGIN's allocation (R85): on success the buffer is valid and the next step is 1; on failure BEGIN ends with
`value = 0`. -/
def beginAllocate (s : State) : State :=
  let t := takeAlloc s
  if allocResult s then
    { t with fbValid := true, lc := .bufferAllocated, seq := .running .begin 1 }
  else respond (okWord false) { t with lc := .failed, seq := .idle }

/-- BEGIN (R84): the lifecycle check, PWR, the allocation; that is step 0 of its step list (R89). -/
def execBegin (pm : PowerMode) (s : State) : Host.Outcome State Fault Refusal :=
  if s.lc = .uninitialized then .next (beginAllocate { s with pwr := pm })
  else .next (raiseFault .beginState s)

end Sys2Proof.Machine
end

