-- ==== Sys2Proof/Machine/Bitmap.lean ====
section
/-! DEFINITION. Machine/Bitmap.lean: the blit and DRAW_BITMAP (spec/41_bitmap.md). -/

namespace Sys2Proof.Machine

/-- How a blit ends: with all of it drawn, or at a source read out of range. Either way the framebuffer
holds the pixels written so far (R77, R104). -/
inductive BlitResult where
  | done (fb : Memory)
  | srcRange (fb : Memory)
  deriving DecidableEq, Repr

/-- The columns of one row, from column `i`, `n` of them left (R77's inner loop). `row` is the source address of
the row's first byte. -/
def blitCols (s : State) (x y : Int) (row : Nat) (color : Color) : Nat → Nat → Memory → BlitResult
  | 0, _, fb => .done fb
  | n + 1, i, fb =>
    match srcRead s (row + i / 8) with
    | none => .srcRange fb
    | some b =>
      blitCols s x y row color n (i + 1)
        (if srcBit b i then writePixelCore s.cfg s.orient fb (x + i) y color else fb)

/-- The rows from row `j`, `n` of them left (R77's outer loop). -/
def blitRows (s : State) (x y : Int) (src w : Nat) (color : Color) : Nat → Nat → Memory → BlitResult
  | 0, _, fb => .done fb
  | n + 1, j, fb =>
    match blitCols s x (y + j) (src + j * byteWidth w) color w 0 fb with
    | .srcRange fb' => .srcRange fb'
    | .done fb' => blitRows s x y src w color n (j + 1) fb'

/-- `Blit` (R77), on the state's framebuffer: no effect and no read unless `w` and `h` are positive. -/
def blit (s : State) (x y : Int) (src : Nat) (w h : Int) (color : Color) : BlitResult :=
  if w ≤ 0 ∨ h ≤ 0 then .done s.fb
  else blitRows s x y src w.toNat color h.toNat 0 s.fb

/-- DRAW_BITMAP (R77): the colour check, the lifecycle check (R63), then the blit. A source read out of
range faults, and the pixels written before it stay (R104). -/
def execDrawBitmap (x y w h : BitVec 16) (src : BitVec 32) (color : ColorCode) (s : State) :
    Host.Outcome State Fault Refusal :=
  match color with
  | .illegal => .next (raiseFault .illegalColor s)
  | .legal c =>
    requireReady s
      (match blit s (coord x) (coord y) (srcAddress src) (coord w) (coord h) c with
      | .done fb => respond (okWord false) { s with fb := fb }
      | .srcRange fb => raiseFault .srcRange { s with fb := fb })

end Sys2Proof.Machine
end

