-- ==== Sys2Proof/Machine/Flush.lean ====
section
/-! DEFINITION. Machine/Flush.lean: the frames of the page-write sequence and FLUSH (spec/44_flush.md). The steps that
send them are the sequencer's (Machine/Sequencer.lean). -/

namespace Sys2Proof.Machine

/-- The page-select frame of page `p`: `[0x00, 0xB0 | p, COL_LOW, 0x10]` (R97). -/
def pageSelectFrame (c : Config) (p : Nat) : List WireByte :=
  cmdFrame [⟨.pageSelect, pageSelOf p⟩, ⟨.colLow, c.colLow⟩, ⟨.colHigh, colHighByte⟩]

/-- The pixel bytes of page `p`, in ascending column order (R96). -/
def pageBytes (c : Config) (fb : Memory) (p : Nat) : List Byte :=
  (List.range c.width).map fun col => Memory.read fb (p * c.width + col)

/-- The data frame of page `p`: `0x40`, then the page's `W` bytes (R96). -/
def pageDataFrame (c : Config) (fb : Memory) (p : Nat) : List WireByte :=
  dataFrame (pageBytes c fb p)

/-- Frame `m` of the page-write sequence: `2p` is page `p`'s page-select frame, `2p + 1` its data frame (R95). -/
def flushFrame (c : Config) (fb : Memory) (m : Nat) : List WireByte :=
  if m % 2 = 0 then pageSelectFrame c (m / 2) else pageDataFrame c fb (m / 2)

/-- The frames of one whole page-write sequence (R95). -/
def flushFrames (c : Config) (fb : Memory) : List (List WireByte) :=
  (List.range (2 * pages c)).map (flushFrame c fb)

/-- FLUSH (R94): past the lifecycle check, the page-write sequence starts at its step 0 (R95). -/
def execFlush (s : State) : Host.Outcome State Fault Refusal :=
  requireReady s { s with seq := .running .flush 0 }

end Sys2Proof.Machine
end

