-- ==== Sys2Proof/Machine/Framebuffer.lean ====
section
/-! DEFINITION. Machine/Framebuffer.lean: CLEAR, FILL, WRITE_PIXEL and READ_PIXEL (spec/40_framebuffer.md). -/

namespace Sys2Proof.Machine

/-- CLEAR (R68). -/
def execClear (s : State) : Host.Outcome State Fault Refusal :=
  requireReady s (respond (okWord false) { s with fb := Memory.fill (nFb s.cfg) 0x00#8 s.fb })

/-- FILL (R69). -/
def execFill (s : State) : Host.Outcome State Fault Refusal :=
  requireReady s (respond (okWord false) { s with fb := Memory.fill (nFb s.cfg) 0xFF#8 s.fb })

/-- WRITE_PIXEL (R70): the colour check comes before the lifecycle check (R63). -/
def execWritePixel (x y : BitVec 16) (color : ColorCode) (s : State) :
    Host.Outcome State Fault Refusal :=
  match color with
  | .illegal => .next (raiseFault .illegalColor s)
  | .legal c =>
    requireReady s (respond (okWord false)
      { s with fb := writePixelCore s.cfg s.orient s.fb (coord x) (coord y) c })

/-- READ_PIXEL (R71). -/
def execReadPixel (x y : BitVec 16) (s : State) : Host.Outcome State Fault Refusal :=
  requireReady s (respond (okWord (readPixelCore s.cfg s.orient s.fb (coord x) (coord y))) s)

end Sys2Proof.Machine
end

