-- ==== Sys2Proof/Machine/Dispatch.lean ====
section
/-! DEFINITION. Machine/Dispatch.lean: one arm per instruction. -/

namespace Sys2Proof.Machine

def exec (i : Instr) (s : State) : Host.Outcome State Fault Refusal :=
  match i with
  -- requests (R52)
  | .begin pm => Sys2Proof.Machine.execBegin pm s
  | .clear => Sys2Proof.Machine.execClear s
  | .fill => Sys2Proof.Machine.execFill s
  | .writePixel x y color => Sys2Proof.Machine.execWritePixel x y color s
  | .drawBitmap x y w h src color => Sys2Proof.Machine.execDrawBitmap x y w h src color s
  | .flush => Sys2Proof.Machine.execFlush s
  | .readPixel x y => Sys2Proof.Machine.execReadPixel x y s
  -- wire bytes (R56 to R61, R87, R90)
  | .tagCmd => Sys2Proof.Machine.execTagCmd s
  | .tagData => Sys2Proof.Machine.execTagData s
  | .pageSel p => Sys2Proof.Machine.execPageSel p s
  | .colLowNormal => Sys2Proof.Machine.execColLowNormal s
  | .colLowVariant => Sys2Proof.Machine.execColLowVariant s
  | .colHigh => Sys2Proof.Machine.execColHigh s
  | .multiplexOperand hMinus1 => Sys2Proof.Machine.execMultiplexOperand hMinus1 s
  | .displayOffsetValue => Sys2Proof.Machine.execDisplayOffsetValue s
  | .cpSelectExternal => Sys2Proof.Machine.execCpSelectExternal s
  | .contrast128x64Internal => Sys2Proof.Machine.execContrast128x64Internal s
  | .contrast128x64External => Sys2Proof.Machine.execContrast128x64External s

end Sys2Proof.Machine
end

