-- ==== Sys2Proof/Machine/Sequencer.lean ====
section
/-! DEFINITION. Machine/Sequencer.lean: the step lists of BEGIN (spec/43_init_sequencer.md R89) and FLUSH
(spec/44_flush.md R95), and `Send` (spec/42_framer.md R82). -/

namespace Sys2Proof.Machine

/-- What a step of a step list does. -/
inductive StepKind where
  | allocate
  | clear
  | splash (b : SplashBlit)
  | contrast
  | initFrame (j : Nat)
  | flushFrame (m : Nat)
  | off
  deriving DecidableEq, Repr

/-- The index of BEGIN's first init-frame step (R89). -/
def initBase (c : Config) : Nat := 3 + c.splash.length

/-- The index of BEGIN's first flush step (R89). -/
def flushBase (c : Config) : Nat := initBase c + c.initFraming.length

/-- The length of an operation's step list (R28, R89, R95). -/
def stepCount (c : Config) : SeqOp → Nat
  | .begin => flushBase c + 2 * pages c
  | .flush => 2 * pages c

/-- Step `k` of an operation's step list (R89, R95). -/
def stepKind (c : Config) (op : SeqOp) (k : Nat) : StepKind :=
  match op with
  | .flush => if k < 2 * pages c then .flushFrame k else .off
  | .begin =>
    if k = 0 then .allocate
    else if k = 1 then .clear
    else if k < 2 + c.splash.length then
      match c.splash[k - 2]? with
      | some b => .splash b
      | none => .off
    else if k = 2 + c.splash.length then .contrast
    else if k < flushBase c then .initFrame (k - initBase c)
    else if k < stepCount c .begin then .flushFrame (k - flushBase c)
    else .off

/-- An operation ends (R84, R94): SEQ is idle, BEGIN's LC is DISPLAY_ON, and the response is issued. -/
def finish (op : SeqOp) (s : State) : State :=
  match op with
  | .begin => respond (okWord true) { s with lc := .displayOn, seq := .idle }
  | .flush => respond (okWord false) { s with seq := .idle }

/-- Step `k` is complete: LC is HANDSHAKE_SENT after BEGIN's last init frame (R89), and SEQ goes to the next
step, or the operation ends (R28). -/
def advance (op : SeqOp) (k : Nat) (s : State) : State :=
  let t := if op = .begin ∧ k + 1 = flushBase s.cfg then { s with lc := .handshakeSent } else s
  if k + 1 = stepCount s.cfg op then finish op t else { t with seq := .running op (k + 1) }

/-- The transport is asked about the pending frame (R42, R82): no answer yet leaves the block where it is, `ok`
completes the step, `fail` raises E_BUS. -/
def pollTransport (op : SeqOp) (k : Nat) (s : State) : State :=
  match transportSays s with
  | .pending => takeAnswer s
  | .ok => advance op k (busAnswer .ok (takeAnswer s))
  | .fail => raiseFault .bus (busAnswer .fail (takeAnswer s))

/-- `Send` of a frame (R82): the framer is given the frame's bytes; when it has built the frame, the frame is
offered; then the block waits for the answer (R42). -/
def sendStep (op : SeqOp) (k : Nat) (f : List WireByte) (s : State) : State :=
  if awaiting s then pollTransport op k s
  else if s.frame = [] then { s with emit := f }
  else busOffer s

/-- One step of the operation in progress. -/
def seqStep (op : SeqOp) (k : Nat) (s : State) : Host.Outcome State Fault Refusal :=
  match stepKind s.cfg op k with
  | .allocate => .next (beginAllocate s)
  | .clear => .next (advance op k { s with fb := Memory.fill (nFb s.cfg) 0x00#8 s.fb })
  | .splash b =>
    match blit s b.x b.y b.srcBase b.w b.h .set with
    | .done fb => .next (advance op k { s with fb := fb })
    | .srcRange fb => .next (raiseFault .srcRange { s with fb := fb })
  | .contrast =>
    match geometry s.cfg with
    | none => .refused .unsupportedGeometry
    | some g => .next (advance op k { s with contrast := contrastFor g s.pwr })
  | .initFrame j =>
    match geometry s.cfg with
    | none => .refused .unsupportedGeometry
    | some g => .next (sendStep op k ((initFrames s.cfg g s.pwr s.contrast).getD j []) s)
  | .flushFrame m => .next (sendStep op k (flushFrame s.cfg s.fb m) s)
  | .off => .fault .offStepList

end Sys2Proof.Machine
end

