-- ==== Sys2Proof/WellFormed.lean ====
section
/-! DEFINITION. WellFormed.lean: which configurations have a model (spec/00_scope.md R12) and which
instructions are well-formed (R53, R62). Each check has its own name. -/

namespace Sys2Proof

/-- R12 (a): `1 <= W <= 32767` and `1 <= H <= 128`. -/
def Config.boundsOk (c : Config) : Bool :=
  decide (1 ≤ c.width) && decide (c.width ≤ 32767) && decide (1 ≤ c.height) && decide (c.height ≤ 128)

/-- R12 (b): `(W, H)` is a key of GEOMETRY_TABLE. -/
def Config.geometryOk (c : Config) : Bool :=
  c.geometryTable.any fun e => decide (e.width = c.width ∧ e.height = c.height)

/-- The two cells of GEOMETRY_TABLE the source gives (R58: for 128x64 the contrasts are `0xCF` and `0x9F`;
R57: where the source gives a value, the value is normative). A table that says otherwise is no table of this
hardware (DEDUCED, assumption 4). -/
def Config.contrastsOk (c : Config) : Bool :=
  c.geometryTable.all fun e =>
    !decide (e.width = 128 ∧ e.height = 64) ||
      decide (e.contrastInternal = 0xCF#8 ∧ e.contrastExternal = 0x9F#8)

/-- R12 (c): `COL_LOW` is in `{0x00, 0x02}`. -/
def Config.colLowOk (c : Config) : Bool :=
  decide (c.colLow = 0x00#8) || decide (c.colLow = 0x02#8)

/-- R12 (d): `ORIENTATION = IDENTITY` (R15). -/
def Config.orientationOk (c : Config) : Bool :=
  decide (c.orientation = .identity)

/-- A splash blit reads only inside the source memory: it reads nothing if its width or height is not
positive, and else addresses up to `src_base + h*bw - 1` (R78, R12 (e)). -/
def SplashBlit.inside (b : SplashBlit) (srcSize : Nat) : Bool :=
  decide (b.w ≤ 0) || decide (b.h ≤ 0) ||
    decide (b.srcBase + b.h.toNat * ((b.w.toNat + 7) / 8) ≤ srcSize)

/-- R12 (e): every SPLASH entry reads only inside the source memory. -/
def Config.splashOk (c : Config) : Bool :=
  c.splash.all fun b => b.inside c.srcSize

/-- The length of the init command stream: 26 bytes (R87). -/
def initStreamLength : Nat := 26

/-- R12 (f): INIT_FRAMING is a partition of the init stream into non-empty contiguous pieces. -/
def Config.framingOk (c : Config) : Bool :=
  c.initFraming.all (fun n => decide (0 < n)) && decide (c.initFraming.sum = initStreamLength)

/-- A configuration the spec builds a model for (R12); any other is refused. -/
def Config.wellFormed (c : Config) : Bool :=
  c.boundsOk && c.geometryOk && c.contrastsOk && c.colLowOk && c.orientationOk && c.splashOk && c.framingOk

/-- An instruction is well-formed unless its colour field holds code 3 (R53, R62 (c)). -/
def Instr.wellFormed : Instr → Bool
  | .begin _ => true
  | .clear => true
  | .fill => true
  | .writePixel _ _ c => decide (c ≠ .illegal)
  | .drawBitmap _ _ _ _ _ c => decide (c ≠ .illegal)
  | .flush => true
  | .readPixel _ _ => true
  | .tagCmd => true
  | .tagData => true
  | .pageSel _ => true
  | .colLowNormal => true
  | .colLowVariant => true
  | .colHigh => true
  | .multiplexOperand _ => true
  | .displayOffsetValue => true
  | .cpSelectExternal => true
  | .contrast128x64Internal => true
  | .contrast128x64External => true

end Sys2Proof
end

