-- ==== Sys2Proof/Machine/Fetch.lean ====
section
/-! DEFINITION. Machine/Fetch.lean: what the machine does next (spec/30_encoding.md R63, spec/10_state.md R28, R30;
spec/60_exceptions.md R103, R112): a byte of the frame being built, a step of the operation in progress, a request
the host has offered, or nothing. -/

namespace Sys2Proof.Machine

/-- What a step does: run an instruction on a state, or end at once. -/
inductive Fetch where
  | run (i : Instr) (s : State)
  | done (o : Host.Outcome State Fault Refusal)

/-- The framer takes the next byte of its frame: an instruction if the byte is a row of the table at its
place, else a byte it just copies (R79, R80). -/
def fetchByte (b : WireByte) (s : State) : Fetch :=
  match decodeWire b with
  | .ok i => .run i s
  | .error _ => .done (.next (appendByte b.byte s))

/-- The block accepts a request (R63): BUSY is set, and a reserved encoding faults (R62 (a), (b)). -/
def acceptRequest (q : RequestWord) (s : State) : Fetch :=
  match decodeRequest q with
  | .ok i => .run i { s with busy := true }
  | .error _ => .done (.next (raiseFault .illegalOp { s with busy := true }))

/-- What a step does. No step of an ill-formed configuration (R12) or after a fault (R103); the frame being built
first, then the operation in progress; a request is accepted only when idle and not busy (R63), and an idle block with
no request keeps all its state (R112). -/
def fetch (s : State) : Fetch :=
  if s.cfg.wellFormed = false then .done (.refused .illFormedConfiguration)
  else if s.faultValid then .done (.fault (.halted s.faultCode))
  else match s.emit with
    | b :: rest => fetchByte b { s with emit := rest }
    | [] =>
      match s.seq with
      | .running op k => .done (seqStep op k s)
      | .idle =>
        match s.busy, s.offered with
        | false, q :: rest => acceptRequest q { s with offered := rest }
        | _, _ => .done (.next s)

/-- A word of the opcode table put where `fetch` takes its next instruction: a wire byte as the framer's next byte, a
request word as the request port's next request, with the block idle. The fetch also needs no recorded fault. -/
def placeWord (s : State) : Encoding → State
  | .wire b => { s with emit := b :: s.emit, faultValid := false, faultCode := .none }
  | .request q =>
    { s with
      offered := q :: s.offered, emit := [], seq := .idle, busy := false, faultValid := false, faultCode := .none }

end Sys2Proof.Machine
end

