-- ==== Sys2Proof/Safety.lean ====
section
/-! DEFINITION. Safety.lean: what counts as a safe state and a finished run, and the invariants the claims use
(spec/10_state.md, spec/60_exceptions.md R103). -/

namespace Sys2Proof.Machine

/-- `n` steps, stopping at the first fault or refusal: `Host.Core.run` of this machine, at its own types. -/
def steps : Nat → State → Host.Outcome State Fault Refusal
  | 0, s => .next s
  | n + 1, s =>
    match step s with
    | .next t => steps n t
    | .fault r => .fault r
    | .refused r => .refused r

/-- Some number of steps leads from `s` to `t`. -/
def Reaches (s t : State) : Prop := ∃ n, steps n s = .next t

/-- No fault is recorded (R103: a faulted state is never a finished run). -/
def Safe (s : State) : Prop := s.faultValid = false

/-- A finished run: no fault, no operation in progress, and every request offered has been answered (R103, R112). -/
def Finished (s : State) : Prop :=
  Safe s ∧ s.seq = .idle ∧ s.busy = false ∧ s.emit = [] ∧ s.offered = []

/-! ### The words of the claims -/

/-- A block that accepts the request `q` with its next step, `rest` waiting behind it (R63). -/
def Ready (s : State) (q : RequestWord) (rest : List RequestWord) : Prop :=
  s.cfg.wellFormed = true ∧ s.faultValid = false ∧ s.emit = [] ∧ s.seq = .idle ∧ s.busy = false ∧
    s.offered = q :: rest

/-- A block at step `k` of an operation, with the framer idle. -/
def AtStep (s : State) (op : SeqOp) (k : Nat) : Prop :=
  s.cfg.wellFormed = true ∧ s.faultValid = false ∧ s.emit = [] ∧ s.seq = .running op k

/-- The response to an operation that ends without a fault: `0x20` for `value = 1`, else `0x00` (R55). -/
def okResponse (value : Bool) : ResponseWord := if value then 0x20#6 else 0x00#6

/-- The response to a fault, `(code << 1) | 1` (R55, R102). -/
def faultResponse : FaultCode → ResponseWord
  | .none => 0x01#6
  | .illegalOp => 0x03#6
  | .illegalColor => 0x05#6
  | .notReady => 0x07#6
  | .beginState => 0x09#6
  | .bus => 0x0B#6
  | .srcRange => 0x0D#6

/-- The state when an operation has ended without a fault: the response is issued and BUSY is clear. -/
def afterOk (value : Bool) (s : State) : State :=
  { s with busy := false, responses := s.responses ++ [okResponse value] }

/-- The state after a fault entry: FAULT, SEQ, the response and BUSY, and nothing else (R103). -/
def afterFault (c : FaultCode) (s : State) : State :=
  { s with
    faultValid := true, faultCode := c, seq := .idle, busy := false,
    responses := s.responses ++ [faultResponse c] }

/-- `q[3:0]`, as a number (R50). -/
def requestOp (q : RequestWord) : Nat := q.toNat % 16

/-- The `w` bits of a request word from bit `start` up (R50). -/
def requestField (q : RequestWord) (start w : Nat) : BitVec w := BitVec.ofNat w (q.toNat / 2 ^ start)

/-- The reserved bits `q[7]` and `q[127:104]` are 0 (R50, R62 (b)). -/
def reservedClear (q : RequestWord) : Prop := q.toNat / 2 ^ 7 % 2 = 0 ∧ q.toNat / 2 ^ 104 = 0

/-- E_ILLEGAL_OP of the operation with code `n`: a request with a reserved bit set faults, and nothing else changes
(R62 (b), R63, R103). -/
def ReservedBitsFault (n : Nat) : Prop :=
  ∀ (s : State) q rest, Ready s q rest → requestOp q = n → ¬ reservedClear q →
    step s = .next (afterFault .illegalOp { s with offered := rest })

/-- The pixel lies on the panel (R35, R70). -/
def InPanel (c : Config) (x y : Int) : Prop := 0 ≤ x ∧ x < c.width ∧ 0 ≤ y ∧ y < c.height

/-- The pixel at column `x`, row `y`: bit `y mod 8` of byte `x + (y div 8) * W` (R35). -/
def pixelOn (c : Config) (fb : Memory) (x y : Nat) : Bool :=
  (Memory.read fb (x + y / 8 * c.width)).getLsbD (y % 8)

/-- No in-range pixel is bit `b` of byte `a`: a byte outside the framebuffer, or a pad bit (R35, R36). -/
def NoPixel (c : Config) (a b : Nat) : Prop :=
  ∀ x y, x < c.width → y < c.height → a = x + y / 8 * c.width → b ≠ y % 8

/-- A pixel is one an operation at `(x, y)` of size `w` by `h` covers. -/
def Covers (x y w h : Int) (px py : Nat) : Prop :=
  x ≤ px ∧ (px : Int) < x + w ∧ y ≤ py ∧ (py : Int) < y + h

/-- The source address of the bit DRAW_BITMAP draws at a covered pixel (R77). -/
def sourceAddress (x y : Int) (src : Nat) (w : Int) (px py : Nat) : Nat :=
  src + ((py : Int) - y).toNat * ((w.toNat + 7) / 8) + ((px : Int) - x).toNat / 8

/-- The bit DRAW_BITMAP draws at a covered pixel: the most significant bit is the byte's first column (R77). -/
def sourceBit (s : State) (x y : Int) (src : Nat) (w : Int) (px py : Nat) : Bool :=
  (Memory.read s.src (sourceAddress x y src w px py)).getLsbD (7 - ((px : Int) - x).toNat % 8)

/-- The source bytes of a blit all lie inside the source memory (R78); a blit with a size that is not positive has
none. -/
def sourceInside (s : State) (src : Nat) (w h : Int) : Prop :=
  w ≤ 0 ∨ h ≤ 0 ∨ src + h.toNat * ((w.toNat + 7) / 8) ≤ s.cfg.srcSize

/-- The framebuffer after the splash blits, one after the other (R86). -/
def splashed (s : State) : List SplashBlit → Memory → Memory
  | [], fb => fb
  | b :: r, fb =>
    match blit { s with fb := fb } b.x b.y b.srcBase b.w b.h .set with
    | .done fb' => splashed s r fb'
    | .srcRange fb' => splashed s r fb'

/-- Trace entries for frames the transport answered with `ok`. -/
def sentOk (c : Config) (frames : List (List WireByte)) : List BusWrite :=
  frames.map fun f => ⟨c.busAddr, c.busChannel, frameBytes f, .ok⟩

/-- The rows of the table the request `i` may be: it reads these operand fields of the word and no other (R50). -/
def sameOperands (i : Instr) (q r : RequestWord) : Prop :=
  match i with
  | .begin _ => qPm q = qPm r
  | .writePixel _ _ _ => qX q = qX r ∧ qY q = qY r ∧ qColor q = qColor r
  | .readPixel _ _ => qX q = qX r ∧ qY q = qY r
  | .drawBitmap _ _ _ _ _ _ =>
    qX q = qX r ∧ qY q = qY r ∧ qW q = qW r ∧ qH q = qH r ∧ qSrc q = qSrc r ∧ qColor q = qColor r
  | _ => True

/-! ### The invariants -/

/-- The memories are in canonical form, and neither lists a byte outside itself (R33, R38). -/
def MemoryInv (s : State) : Prop :=
  Memory.wf s.fb = true ∧ Memory.wf s.src = true ∧
    Memory.below s.fb (nFb s.cfg) = true ∧ Memory.below s.src s.cfg.srcSize = true

/-- FAULT_VALID says whether FAULT_CODE holds a fault, and a faulted block is idle (R29, R103). -/
def FaultInv (s : State) : Prop :=
  (s.faultValid = true ↔ s.faultCode ≠ .none) ∧ (s.faultValid = true → s.seq = .idle)

/-- BUSY is set exactly while an operation is in progress (R30). -/
def BusyInv (s : State) : Prop := s.busy = true ↔ s.seq ≠ .idle

/-- SEQ never stands outside its step list (R28), and LC agrees with it (R24, R89): BEGIN runs in
BUFFER_ALLOCATED up to its last init frame and in HANDSHAKE_SENT from then on, FLUSH runs in DISPLAY_ON, and between
operations LC is UNINITIALIZED, DISPLAY_ON or FAILED unless BEGIN faulted part-way. -/
def SequencerInv (s : State) : Prop :=
  match s.seq with
  | .running .begin k =>
    1 ≤ k ∧ k < stepCount s.cfg .begin ∧
      s.lc = (if k < flushBase s.cfg then .bufferAllocated else .handshakeSent)
  | .running .flush k => k < stepCount s.cfg .flush ∧ s.lc = .displayOn
  | .idle =>
    s.lc = .uninitialized ∨ s.lc = .displayOn ∨ s.lc = .failed ∨
      (s.faultValid = true ∧ (s.lc = .bufferAllocated ∨ s.lc = .handshakeSent))

/-- FB_VALID is set exactly in the lifecycle states that have a buffer (R24, R25, R85). -/
def BufferInv (s : State) : Prop :=
  s.fbValid = true ↔ (s.lc = .bufferAllocated ∨ s.lc = .handshakeSent ∨ s.lc = .displayOn)

/-- A frame as the wire format has it: one tag, then at least one byte (R56, R64, R81). -/
def FrameOk (f : List Byte) : Prop :=
  ∃ tag rest, f = tag :: rest ∧ (tag = 0x00#8 ∨ tag = 0x40#8) ∧ rest ≠ []

/-- Every frame of the trace is well-formed and was sent to BUS_ADDR (R39, R56) with BUS_CHANNEL passed along (R9), and
every entry but the last has been answered (R42, R47). -/
def TraceInv (s : State) : Prop :=
  (∀ e ∈ s.trace, e.addr = s.cfg.busAddr ∧ e.channel = s.cfg.busChannel ∧ FrameOk e.frame) ∧
    ∀ e ∈ s.trace.dropLast, e.answer ≠ .pending

/-- Every frame of the trace but the last has been answered, and between operations the last one too (R42, R47, R48). -/
def AnsweredInv (s : State) : Prop :=
  (∀ e ∈ s.trace.dropLast, e.answer ≠ .pending) ∧ (s.seq = .idle → ∀ e ∈ s.trace, e.answer ≠ .pending)

/-- The same state with another BUS_CHANNEL, in the configuration and in the trace's record of what was passed along. -/
def withChannel (n : Nat) (s : State) : State :=
  { s with
    cfg := { s.cfg with busChannel := n },
    trace := s.trace.map fun e => { e with channel := n } }

/-- The frame the step `k` of an operation sends, if it is a `Send` (R89, R95). -/
def sendFrame (s : State) (op : SeqOp) (k : Nat) : Option (List WireByte) :=
  match stepKind s.cfg op k with
  | .initFrame j => (geometry s.cfg).map fun g => (initFrames s.cfg g s.pwr s.contrast).getD j []
  | .flushFrame m => some (flushFrame s.cfg s.fb m)
  | _ => none

/-- The framer holds nothing, or it is part-way through the frame of the step in progress, which is not yet offered:
the first `n` bytes are in the frame and the others are still to come (R79, R80, R83). -/
def FramerInv (s : State) : Prop :=
  s.frame = [] ∧ s.emit = [] ∨
    awaiting s = false ∧ ∃ op k f n, s.seq = .running op k ∧ sendFrame s op k = some f ∧ n ≤ f.length ∧
      s.frame = frameBytes (f.take n) ∧ s.emit = f.drop n

end Sys2Proof.Machine
end

