-- ==== Sys2Proof/Certificates/Slice0/Obligations.lean ====
section
/-! DEFINITION. Certificates/Slice0/Obligations.lean: the statements about the machine. The words they use are in
Safety.lean. -/

open Sys2Proof Sys2Proof.Machine

/-! ### Encoding -/

/-- Every instruction's encoding decodes to it, with every operand at every value (R50 to R54, R59 to R61). -/
def Obligations.DecodeEncodeAgree : Prop :=
  ∀ i : Instr, decode (encode i) = .ok i

/-- R50: "A field an operation does not use is ignored: it may hold any value". Two words with the same operation, the
reserved fields 0 and the same fields used by that operation decode to the same instruction. -/
def Obligations.UnusedRequestFieldsAreIgnored : Prop :=
  ∀ (q r : RequestWord) (i : Instr), decodeRequest q = .ok i → reservedClear r →
    requestOp r = requestOp q → sameOperands i q r → decodeRequest r = .ok i

/-- R62 (a), (b): exactly the words with a reserved operation code or a reserved bit set decode to nothing. -/
def Obligations.ReservedRequestsHaveNoInstruction : Prop :=
  ∀ q : RequestWord, (∃ e, decodeRequest q = .error e) ↔
    (¬ reservedClear q ∨ requestOp q = 0 ∨ 8 ≤ requestOp q)

/-- A few words written out from R50, R59 to R61 and 95_test_vectors.md. -/
def Obligations.WordsOfTheSpecDecode : Prop :=
  decodeRequest 0x00000000000000000000000000000041#128 = .ok (.begin .external) ∧
  decodeRequest 0x0000000000000000000000000A000524#128 = .ok (.writePixel 5 10 (.legal .invert)) ∧
  decodeRequest 0x0000000000000000020003003E007E05#128 =
    .ok (.drawBitmap 126 62 3 2 0 (.legal .clear)) ∧
  decodeRequest 0x00000000000000000000000000FFFF07#128 = .ok (.readPixel 0xFFFF 0) ∧
  decodeRequest 0x00000000000000000000000000123406#128 = .ok .flush ∧
  decodeWire ⟨.pageSelect, 0xB7#8⟩ = .ok (.pageSel 7) ∧
  decodeWire ⟨.multiplex, 0x3F#8⟩ = .ok (.multiplexOperand 63) ∧
  decodeWire ⟨.chargePumpExternal, 0x10#8⟩ = .ok .cpSelectExternal

/-! ### The step -/

/-- A request that decodes to `i`, offered to an idle block, is accepted and run: the step is `exec i`, with the
request taken from the port and BUSY set (R63). -/
def Obligations.StepRunsTheDecodedRequest : Prop :=
  ∀ (s : State) q rest i, Ready s q rest → decodeRequest q = .ok i →
    step s = exec i { s with offered := rest, busy := true }

/-- The framer's next byte, if it is a row of the table at its place, is run: the step is `exec` of that row; a byte
that is no row is copied into the frame (R79, R80). The framer's bytes are the model's own state (assumption 6). -/
def Obligations.StepRunsTheDecodedWireByte : Prop :=
  ∀ (s : State) b rest, s.cfg.wellFormed = true → s.faultValid = false → s.emit = b :: rest →
    (∀ i, decodeWire b = .ok i → step s = exec i { s with emit := rest }) ∧
    ((∃ e, decodeWire b = .error e) →
      step s = .next { s with emit := rest, frame := s.frame ++ [b.byte] })

/-- A word of the opcode table placed by `withFetchWord` is what the next step runs. -/
def Obligations.FetchedWordRunsNext : Prop :=
  ∀ (s : State) (nbits w : Nat) (i : Instr), s.cfg.wellFormed = true → decodeTableWord nbits w = some i →
    ∃ t, step (s.withFetchWord nbits w) = exec i t ∧ t.lc = s.lc ∧ t.fb = s.fb ∧ t.trace = s.trace ∧
      t.frame = s.frame ∧ t.cfg = s.cfg

/-- R63 (with R62's checks): when the block is idle and a request is offered, the checks run in order: a reserved code or bit, the
colour, the lifecycle; the first that fails decides the fault, and nothing else changes. Only then does the operation
run. A faulted block accepts nothing. -/
def Obligations.RequestChecksRunInOrder : Prop :=
  (∀ (s : State) q rest, Ready s q rest →
    ((¬ reservedClear q ∨ requestOp q = 0 ∨ 8 ≤ requestOp q) →
      step s = .next (afterFault .illegalOp { s with offered := rest })) ∧
    (reservedClear q → (requestOp q = 4 ∨ requestOp q = 5) → requestField q 4 2 = 3#2 →
      step s = .next (afterFault .illegalColor { s with offered := rest })) ∧
    (reservedClear q → requestOp q = 1 → s.lc ≠ .uninitialized →
      step s = .next (afterFault .beginState { s with offered := rest })) ∧
    (reservedClear q → 2 ≤ requestOp q → requestOp q ≤ 7 →
      ¬ ((requestOp q = 4 ∨ requestOp q = 5) ∧ requestField q 4 2 = 3#2) → s.lc ≠ .displayOn →
      step s = .next (afterFault .notReady { s with offered := rest })) ∧
    (reservedClear q → 1 ≤ requestOp q → requestOp q ≤ 7 →
      ∃ i, decodeRequest q = .ok i ∧ step s = exec i { s with offered := rest, busy := true })) ∧
  (∀ s : State, s.cfg.wellFormed = true → s.faultValid = true → step s = .fault (.halted s.faultCode))

/-- R67: a request that needs the display faults with E_NOT_READY in any lifecycle state but DISPLAY_ON, and nothing else
changes; and BEGIN faults with E_BEGIN_STATE in any but UNINITIALIZED. -/
def Obligations.LifecycleChecks : Prop :=
  ∀ s : State, (s.lc ≠ .displayOn →
      exec .clear s = .next (afterFault .notReady s) ∧
      exec .fill s = .next (afterFault .notReady s) ∧
      (∀ x y c, exec (.writePixel x y (.legal c)) s = .next (afterFault .notReady s)) ∧
      (∀ x y, exec (.readPixel x y) s = .next (afterFault .notReady s)) ∧
      (∀ x y w h src c, exec (.drawBitmap x y w h src (.legal c)) s = .next (afterFault .notReady s)) ∧
      exec .flush s = .next (afterFault .notReady s)) ∧
    (s.lc ≠ .uninitialized → ∀ pm, exec (.begin pm) s = .next (afterFault .beginState s))

/-- R107: a faulted block takes no step: nothing returns from a fault, and a second fault cannot occur. -/
def Obligations.FaultedBlockTakesNoStep : Prop :=
  ∀ s : State, s.faultValid = true → ∀ t, step s ≠ .next t

/-- R12: the conditions of a well-formed configuration (the third clause, on the contrasts the source gives, is R58's
and the model's reading: assumption 4), and an ill-formed one is refused. -/
def Obligations.IllFormedConfigurationIsRefused : Prop :=
  ∀ s : State, (s.cfg.wellFormed = true ↔
      (1 ≤ s.cfg.width ∧ s.cfg.width ≤ 32767 ∧ 1 ≤ s.cfg.height ∧ s.cfg.height ≤ 128) ∧
      (∃ e ∈ s.cfg.geometryTable, e.width = s.cfg.width ∧ e.height = s.cfg.height) ∧
      (∀ e ∈ s.cfg.geometryTable, e.width = 128 → e.height = 64 →
        e.contrastInternal = 0xCF#8 ∧ e.contrastExternal = 0x9F#8) ∧
      (s.cfg.colLow = 0x00#8 ∨ s.cfg.colLow = 0x02#8) ∧
      s.cfg.orientation = .identity ∧
      (∀ b ∈ s.cfg.splash, b.w ≤ 0 ∨ b.h ≤ 0 ∨
        b.srcBase + b.h.toNat * ((b.w.toNat + 7) / 8) ≤ s.cfg.srcSize) ∧
      ((∀ n ∈ s.cfg.initFraming, 0 < n) ∧ s.cfg.initFraming.sum = 26)) ∧
    (s.cfg.wellFormed = false → step s = .refused .illFormedConfiguration)

/-- R112: an idle block with no request keeps all its state. -/
def Obligations.IdleBlockKeepsItsState : Prop :=
  ∀ s : State, s.cfg.wellFormed = true → s.faultValid = false → s.emit = [] → s.seq = .idle → s.offered = [] →
    step s = .next s

/-- R116: a request offered while BUSY is not taken; it waits, until the response has been issued. -/
def Obligations.RequestOfferedWhileBusyWaits : Prop :=
  ∀ s t : State, s.busy = true → step s = .next t →
    t.offered = s.offered ∧ (t.busy = false → ∃ r, t.responses = s.responses ++ [r])

/-- R55, R116: requests are neither lost nor answered twice: the requests waiting, the one in progress and the
responses issued always come to the same number. -/
def Obligations.OneResponsePerAcceptedRequest : Prop :=
  ∀ s t : State, BusyInv s → step s = .next t →
    t.offered.length + t.responses.length + (if t.busy then 1 else 0) =
      s.offered.length + s.responses.length + (if s.busy then 1 else 0)

/-! ### Framebuffer operations -/

/-- R68: CLEAR. -/
def Obligations.ClearRule : Prop :=
  ReservedBitsFault 2 ∧
  (∀ q, decodeRequest q = .ok .clear ↔ reservedClear q ∧ requestOp q = 2) ∧
  (∀ s : State, s.lc = .displayOn → ∃ t, exec .clear s = .next t ∧ t = afterOk false { s with fb := t.fb } ∧
    ∀ a, Memory.read t.fb a = if a < s.cfg.width * ((s.cfg.height + 7) / 8) then 0x00#8
      else Memory.read s.fb a) ∧
  (∀ s : State, s.lc ≠ .displayOn → exec .clear s = .next (afterFault .notReady s))

/-- R69: FILL. -/
def Obligations.FillRule : Prop :=
  ReservedBitsFault 3 ∧
  (∀ q, decodeRequest q = .ok .fill ↔ reservedClear q ∧ requestOp q = 3) ∧
  (∀ s : State, s.lc = .displayOn → ∃ t, exec .fill s = .next t ∧ t = afterOk false { s with fb := t.fb } ∧
    ∀ a, Memory.read t.fb a = if a < s.cfg.width * ((s.cfg.height + 7) / 8) then 0xFF#8
      else Memory.read s.fb a) ∧
  (∀ s : State, s.lc ≠ .displayOn → exec .fill s = .next (afterFault .notReady s))

/-- R70: WRITE_PIXEL. A pixel on the panel: the addressed bit takes the colour, and every other bit of every byte is
kept. A pixel off the panel: every byte is kept. Either way nothing but the framebuffer and the response changes. -/
def Obligations.WritePixelRule : Prop :=
  ReservedBitsFault 4 ∧
  (∀ q, reservedClear q → requestOp q = 4 → decodeRequest q =
    .ok (.writePixel (requestField q 8 16) (requestField q 24 16) (colorOfCode (requestField q 4 2)))) ∧
  (∀ (s : State) x y c, s.lc = .displayOn → Memory.wf s.fb = true →
    ∃ t, exec (.writePixel x y (.legal c)) s = .next t ∧ t = afterOk false { s with fb := t.fb } ∧
      (InPanel s.cfg x.toInt y.toInt → ∀ a b, b < 8 →
        (Memory.read t.fb a).getLsbD b =
          if a = x.toInt.toNat + y.toInt.toNat / 8 * s.cfg.width ∧ b = y.toInt.toNat % 8 then
            colorBit c ((Memory.read s.fb a).getLsbD b)
          else (Memory.read s.fb a).getLsbD b) ∧
      (¬ InPanel s.cfg x.toInt y.toInt → ∀ a, Memory.read t.fb a = Memory.read s.fb a)) ∧
  (∀ (s : State) x y c, s.lc ≠ .displayOn →
    exec (.writePixel x y (.legal c)) s = .next (afterFault .notReady s)) ∧
  (∀ (s : State) x y, exec (.writePixel x y .illegal) s = .next (afterFault .illegalColor s))

/-- R71: READ_PIXEL. It changes no state but the response. -/
def Obligations.ReadPixelRule : Prop :=
  ReservedBitsFault 7 ∧
  (∀ q, reservedClear q → requestOp q = 7 →
    decodeRequest q = .ok (.readPixel (requestField q 8 16) (requestField q 24 16))) ∧
  (∀ (s : State) x y, s.lc = .displayOn → InPanel s.cfg x.toInt y.toInt → exec (.readPixel x y) s =
    .next (afterOk (pixelOn s.cfg s.fb x.toInt.toNat y.toInt.toNat) s)) ∧
  (∀ (s : State) x y, s.lc = .displayOn → ¬ InPanel s.cfg x.toInt y.toInt →
    exec (.readPixel x y) s = .next (afterOk false s)) ∧
  (∀ (s : State) x y, s.lc ≠ .displayOn → exec (.readPixel x y) s = .next (afterFault .notReady s))

/-- R74: (a) read-back, (b) out of range, (c) commuting writes, (d) CLEAR and FILL. -/
def Obligations.FramebufferLaws : Prop :=
  (∀ (s : State) x y, s.lc = .displayOn → Memory.wf s.fb = true → InPanel s.cfg x.toInt y.toInt →
    (∃ t u, exec (.writePixel x y (.legal .set)) s = .next t ∧ exec (.readPixel x y) t = .next u ∧
      u.responses = t.responses ++ [0x20#6]) ∧
    (∃ t u, exec (.writePixel x y (.legal .clear)) s = .next t ∧ exec (.readPixel x y) t = .next u ∧
      u.responses = t.responses ++ [0x00#6]) ∧
    (∃ t u, exec (.writePixel x y (.legal .invert)) s = .next t ∧
      exec (.writePixel x y (.legal .invert)) t = .next u ∧ u.fb = s.fb)) ∧
  (∀ (s : State) x y c, s.lc = .displayOn → ¬ InPanel s.cfg x.toInt y.toInt →
    ∃ t, exec (.writePixel x y (.legal c)) s = .next t ∧ t.fb = s.fb) ∧
  (∀ (s : State) x y x' y' c c', s.lc = .displayOn → Memory.wf s.fb = true → InPanel s.cfg x.toInt y.toInt →
    InPanel s.cfg x'.toInt y'.toInt → ((x, y) ≠ (x', y') ∨ c = c') →
    ∃ t u t' u', exec (.writePixel x y (.legal c)) s = .next t ∧
      exec (.writePixel x' y' (.legal c')) t = .next u ∧
      exec (.writePixel x' y' (.legal c')) s = .next t' ∧
      exec (.writePixel x y (.legal c)) t' = .next u' ∧ u.fb = u'.fb) ∧
  (∀ s : State, s.lc = .displayOn →
    (∃ t, exec .clear s = .next t ∧ ∀ a, a < nFb s.cfg → Memory.read t.fb a = 0x00#8) ∧
    (∃ t, exec .fill s = .next t ∧ ∀ a, a < nFb s.cfg → Memory.read t.fb a = 0xFF#8))

/-- R72: the colour law on the addressed bit, and no other bit changes. -/
def Obligations.ColourLaw : Prop :=
  ∀ (v : Byte) (b k : Nat), b < 8 → k < 8 →
    (applyColor .set v b).getLsbD k = (if k = b then true else v.getLsbD k) ∧
    (applyColor .clear v b).getLsbD k = (if k = b then false else v.getLsbD k) ∧
    (applyColor .invert v b).getLsbD k = (if k = b then !v.getLsbD k else v.getLsbD k)

/-- R35: `Addr` lands in the framebuffer, is one-to-one on the panel's pixels, and reaches every byte and bit whose
row is on the panel. -/
def Obligations.PixelAddressLaw : Prop :=
  ∀ c : Config, 1 ≤ c.width →
    (∀ x y, InPanel c x y → pixelIndex c x y = x.toNat + y.toNat / 8 * c.width ∧
      pixelBit y = y.toNat % 8 ∧ pixelIndex c x y < nFb c) ∧
    (∀ x y x' y', InPanel c x y → InPanel c x' y' → pixelIndex c x y = pixelIndex c x' y' →
      pixelBit y = pixelBit y' → x = x' ∧ y = y') ∧
    (∀ idx bit, idx < nFb c → bit < 8 → ((∃ x y, InPanel c x y ∧ pixelIndex c x y = idx ∧
      pixelBit y = bit) ↔ 8 * (idx / c.width) + bit < c.height))

/-- R36: WRITE_PIXEL, READ_PIXEL and DRAW_BITMAP keep the bits no pixel maps to; CLEAR writes them 0 and FILL writes
them 1 (with R68, R69). BEGIN's clear and FLUSH are BeginStepsBeforeTheHandshake and FlushFramesOnTheWire. -/
def Obligations.PadBitsAreNotPixels : Prop :=
  ∀ (s : State) a b, Memory.wf s.fb = true → b < 8 → a < nFb s.cfg → NoPixel s.cfg a b →
    (∀ x y c t, exec (.writePixel x y c) s = .next t →
      (Memory.read t.fb a).getLsbD b = (Memory.read s.fb a).getLsbD b) ∧
    (∀ x y t, exec (.readPixel x y) s = .next t → t.fb = s.fb) ∧
    (∀ x y w h src c t, exec (.drawBitmap x y w h src c) s = .next t →
      (Memory.read t.fb a).getLsbD b = (Memory.read s.fb a).getLsbD b) ∧
    (s.lc = .displayOn →
      (∃ t, exec .clear s = .next t ∧ (Memory.read t.fb a).getLsbD b = false) ∧
      (∃ t, exec .fill s = .next t ∧ (Memory.read t.fb a).getLsbD b = true))

/-- R75: CLEAR, FILL, WRITE_PIXEL and READ_PIXEL send nothing and change neither LC nor CONTRAST nor PWR, in every
state and for every operand. -/
def Obligations.DrawingSendsNothing : Prop :=
  ∀ (i : Instr) (s : State), (i = .clear ∨ i = .fill ∨ (∃ x y c, i = .writePixel x y c) ∨
      (∃ x y, i = .readPixel x y)) →
    ∃ t, exec i s = .next t ∧ t.trace = s.trace ∧ t.frame = s.frame ∧ t.emit = s.emit ∧ t.lc = s.lc ∧
      t.contrast = s.contrast ∧ t.pwr = s.pwr

/-! ### DRAW_BITMAP -/

/-- R77: DRAW_BITMAP. A pixel of the panel takes the colour exactly when the blit covers it, its source byte lies
inside the source memory and its source bit is set; every other bit of every byte is kept. The blit ends without a
fault if its source lies inside the source memory, and with E_SRC_RANGE otherwise. The pixels drawn before the first
source read out of range stay, with the fault in one step (R77, R104; the model's reading: assumption 12). -/
def Obligations.DrawBitmapRule : Prop :=
  ReservedBitsFault 5 ∧
  (∀ q, reservedClear q → requestOp q = 5 → decodeRequest q =
    .ok (.drawBitmap (requestField q 8 16) (requestField q 24 16) (requestField q 40 16)
      (requestField q 56 16) (requestField q 72 32) (colorOfCode (requestField q 4 2)))) ∧
  (∀ (s : State) x y w h src c, s.lc = .displayOn → Memory.wf s.fb = true →
    ∃ t, exec (.drawBitmap x y w h src (.legal c)) s = .next t ∧
      (sourceInside s src.toNat w.toInt h.toInt → t = afterOk false { s with fb := t.fb }) ∧
      (¬ sourceInside s src.toNat w.toInt h.toInt → t = afterFault .srcRange { s with fb := t.fb }) ∧
      (∀ px py, px < s.cfg.width → py < s.cfg.height →
        (Covers x.toInt y.toInt w.toInt h.toInt px py ∧
            sourceAddress x.toInt y.toInt src.toNat w.toInt px py < s.cfg.srcSize ∧
            sourceBit s x.toInt y.toInt src.toNat w.toInt px py = true →
          pixelOn s.cfg t.fb px py = colorBit c (pixelOn s.cfg s.fb px py)) ∧
        (¬ (Covers x.toInt y.toInt w.toInt h.toInt px py ∧
            sourceAddress x.toInt y.toInt src.toNat w.toInt px py < s.cfg.srcSize ∧
            sourceBit s x.toInt y.toInt src.toNat w.toInt px py = true) →
          pixelOn s.cfg t.fb px py = pixelOn s.cfg s.fb px py)) ∧
      (∀ a b, b < 8 → NoPixel s.cfg a b →
        (Memory.read t.fb a).getLsbD b = (Memory.read s.fb a).getLsbD b)) ∧
  (∀ (s : State) x y w h src c, s.lc ≠ .displayOn →
    exec (.drawBitmap x y w h src (.legal c)) s = .next (afterFault .notReady s)) ∧
  (∀ (s : State) x y w h src, exec (.drawBitmap x y w h src .illegal) s = .next (afterFault .illegalColor s))

/-- R78: DRAW_BITMAP reads no source address outside its extent: with any other bytes outside it, the outcome is the
same. -/
def Obligations.DrawBitmapReadsOnlyItsSource : Prop :=
  ∀ (s : State) x y w h src c m, s.lc = .displayOn →
    (∀ a, src.toNat ≤ a → a < src.toNat + h.toInt.toNat * ((w.toInt.toNat + 7) / 8) →
      Memory.read m a = Memory.read s.src a) →
    ∃ t, exec (.drawBitmap x y w h src (.legal c)) s = .next t ∧
      exec (.drawBitmap x y w h src (.legal c)) { s with src := m } = .next { t with src := m }

/-! ### BEGIN -/

/-- R84, R85, R91: BEGIN's first step. It is accepted in UNINITIALIZED alone; PWR is written; the allocation decides:
success makes the buffer valid and BEGIN goes on, failure ends it with `value = 0` and LC = FAILED, and nothing is
sent either way. -/
def Obligations.BeginStartsOrReportsFailure : Prop :=
  (∀ q, reservedClear q → requestOp q = 1 →
    decodeRequest q = .ok (.begin (if requestField q 6 1 = 0#1 then .internal else .external))) ∧
  (∀ (s : State) pm, s.lc = .uninitialized → ∃ t, exec (.begin pm) s = .next t ∧
    (allocResult s = true → t = { s with
      pwr := pm, fbValid := true, lc := .bufferAllocated, seq := .running .begin 1,
      allocs := t.allocs, draws := t.draws }) ∧
    (allocResult s = false → t = afterOk false { s with
      pwr := pm, lc := .failed, seq := .idle, allocs := t.allocs, draws := t.draws })) ∧
  (∀ (s : State) pm, s.lc ≠ .uninitialized → exec (.begin pm) s = .next (afterFault .beginState s))

/-- R87, R90: the 26 bytes of the init stream, for every configuration, geometry row and power mode, with the CONTRAST
register's value `v`; CP_SELECT_EXTERNAL is `0x10`. -/
def Obligations.InitStreamBytes : Prop :=
  ∀ (c : Config) (g : GeometryEntry) (pwr : PowerMode) (v : Byte),
    frameBytes (initStream c g pwr v) =
      [c.commands.displayOff, c.commands.setClockDiv, c.commands.clockDivValue, c.commands.setMultiplex,
        BitVec.ofNat 8 (c.height - 1),
        c.commands.setDisplayOffset, 0x00#8, c.commands.setStartLine, c.commands.chargePump,
        (match pwr with
          | .internal => c.commands.cpSelectInternal
          | .external => 0x10#8),
        c.commands.memoryMode, c.commands.memoryModeValue, c.commands.segRemap, c.commands.comScanDec,
        c.commands.setComPins, g.comPins, c.commands.setContrast, v,
        c.commands.setPrecharge,
        (match pwr with
          | .internal => c.commands.prechargeInternal
          | .external => c.commands.prechargeExternal),
        c.commands.setVcomDetect, c.commands.vcomValue, c.commands.displayAllOnResume,
        c.commands.normalDisplay, c.commands.deactivateScroll, c.commands.displayOn]

/-- R88: under every partition the init frames are command frames, none of them the tag alone, one per piece, and
their command bytes are the init stream; the default partition gives seven frames of 6, 5, 2, 5, 5, 3 and 7 bytes. -/
def Obligations.InitFramesCarryTheStream : Prop :=
  ∀ (c : Config) (g : GeometryEntry) (pwr : PowerMode) (v : Byte), c.wellFormed = true →
    (initFrames c g pwr v).length = c.initFraming.length ∧
    (∀ f ∈ initFrames c g pwr v, ∃ d, frameBytes f = 0x00#8 :: d ∧ d ≠ []) ∧
    ((initFrames c g pwr v).map fun f => (frameBytes f).drop 1).flatten =
      frameBytes (initStream c g pwr v) ∧
    (c.initFraming = [5, 4, 1, 4, 4, 2, 6] →
      (initFrames c g pwr v).map List.length = [6, 5, 2, 5, 5, 3, 7])

/-- R86, R87 group 5, R89, R90: BEGIN's steps before the handshake. Step 1 clears the framebuffer; the steps after it
draw the splash, each as a SET blit; the last one writes CONTRAST from GEOMETRY_TABLE and PWR. Nothing else changes but
SEQ, which goes to the next step. -/
def Obligations.BeginStepsBeforeTheHandshake : Prop :=
  (∀ s : State, AtStep s .begin 1 → ∃ t, step s = .next t ∧
    t = { s with fb := t.fb, seq := .running .begin 2 } ∧
    ∀ a, Memory.read t.fb a = if a < nFb s.cfg then 0x00#8 else Memory.read s.fb a) ∧
  (∀ (s : State) j b, AtStep s .begin (2 + j) → s.cfg.splash[j]? = some b →
    ∃ fb, blit s b.x b.y b.srcBase b.w b.h .set = .done fb ∧
      step s = .next { s with fb := fb, seq := .running .begin (3 + j) }) ∧
  (∀ s : State, AtStep s .begin (2 + s.cfg.splash.length) → ∃ g ∈ s.cfg.geometryTable,
    g.width = s.cfg.width ∧ g.height = s.cfg.height ∧
    step s = .next { s with
      contrast := (match s.pwr with
        | .internal => g.contrastInternal
        | .external => g.contrastExternal),
      seq := .running .begin (3 + s.cfg.splash.length) })

/-- R90, R58: on the 128x64 panel the contrast BEGIN writes is `0xCF` for INTERNAL and `0x9F` for EXTERNAL. -/
def Obligations.ContrastOfThe128x64Panel : Prop :=
  ∀ s : State, AtStep s .begin (2 + s.cfg.splash.length) → s.cfg.width = 128 → s.cfg.height = 64 →
    ∃ t, step s = .next t ∧ (s.pwr = .internal → t.contrast = 0xCF#8) ∧
      (s.pwr = .external → t.contrast = 0x9F#8)

/-- R84, R89, R92: BEGIN, from an idle block, with the allocation succeeding and every frame answered `ok`, ends with
`value = 1` and LC = DISPLAY_ON; its trace is exactly the init frames and then the frames of one flush of the buffer as
the splash left it, all zero if there is no splash; nothing else changes but what R84 writes. -/
def Obligations.BeginCompletes : Prop :=
  ∀ (s : State) q rest pm g al ans, Ready s q rest → decodeRequest q = .ok (.begin pm) → s.frame = [] →
    awaiting s = false → s.lc = .uninitialized → geometry s.cfg = some g → s.allocs = true :: al →
    s.answers = List.replicate (s.cfg.initFraming.length + 2 * pages s.cfg) .ok ++ ans →
    ∃ fb, fb = splashed s s.cfg.splash (Memory.fill (nFb s.cfg) 0x00#8 s.fb) ∧
      (s.cfg.splash = [] → ∀ a, a < nFb s.cfg → Memory.read fb a = 0x00#8) ∧
      Reaches s (afterOk true { s with
        offered := rest, allocs := al, answers := ans, pwr := pm, fbValid := true, lc := .displayOn,
        fb := fb, contrast := contrastFor g pm,
        trace := s.trace ++ sentOk s.cfg (initFrames s.cfg g pm (contrastFor g pm)) ++
          sentOk s.cfg (flushFrames s.cfg fb) })

/-- R84: a step of BEGIN can fault with E_BUS alone; E_SRC_RANGE cannot arise, because a well-formed SPLASH stays
inside the source memory. -/
def Obligations.BeginFaultsOnlyOnTheBus : Prop :=
  ∀ (s t : State) k, AtStep s .begin k → step s = .next t → t.faultValid = true → t.faultCode = .bus

/-! ### FLUSH -/

/-- R94: past the lifecycle check FLUSH starts the page-write sequence at its step 0, and changes nothing else. -/
def Obligations.FlushStarts : Prop :=
  (∀ q, decodeRequest q = .ok .flush ↔ reservedClear q ∧ requestOp q = 6) ∧
  (∀ s : State, s.lc = .displayOn → exec .flush s = .next { s with seq := .running .flush 0 }) ∧
  (∀ s : State, s.lc ≠ .displayOn → exec .flush s = .next (afterFault .notReady s))

/-- R97 (and R96, R98): the frames of the page-write sequence: per page its page-select frame and then its data frame, and
`(4 + (1 + W)) * PAGES` bytes in all. -/
def Obligations.FlushFramesOnTheWire : Prop :=
  ∀ (c : Config) (fb : Memory),
    (flushFrames c fb).length = 2 * pages c ∧
    (∀ p, p < pages c →
      (flushFrames c fb)[2 * p]?.map frameBytes =
        some [0x00#8, 0xB0#8 ||| (BitVec.ofNat 4 p).setWidth 8, c.colLow, 0x10#8] ∧
      (flushFrames c fb)[2 * p + 1]?.map frameBytes =
        some (0x40#8 :: (List.range c.width).map fun col => Memory.read fb (p * c.width + col))) ∧
    ((flushFrames c fb).map List.length).sum = (4 + (1 + c.width)) * pages c

/-- R94, R95, R98: FLUSH, from an idle block with the display on and every frame answered `ok`, ends without a fault;
its trace is exactly the frames of the page-write sequence of the framebuffer, in order; nothing else changes. -/
def Obligations.FlushCompletes : Prop :=
  ∀ (s : State) q rest ans, Ready s q rest → decodeRequest q = .ok .flush → s.frame = [] → awaiting s = false →
    s.lc = .displayOn → s.answers = List.replicate (2 * pages s.cfg) .ok ++ ans →
    Reaches s (afterOk false { s with
      offered := rest, answers := ans, trace := s.trace ++ sentOk s.cfg (flushFrames s.cfg s.fb) })

/-- R94, R45: no step of a flush changes the framebuffer, LC, CONTRAST or PWR. -/
def Obligations.FlushKeepsTheFramebuffer : Prop :=
  ∀ (s t : State) k, s.seq = .running .flush k → step s = .next t →
    t.fb = s.fb ∧ t.lc = s.lc ∧ t.contrast = s.contrast ∧ t.pwr = s.pwr ∧ t.fbValid = s.fbValid

/-! ### The framer and the bus -/

/-- Each wire byte the table lists is put in the frame, with the value R56, R58 to R61, R87 and R90 give it: a tag opens
the frame, the others follow. Nothing else changes. The frame field and the bytes as instructions of the framer are the
model's (assumption 6), and so is what happens in states no run reaches: a byte with no frame open, a tag over an
unfinished frame (assumption 17). -/
def Obligations.WireBytesEnterTheFrame : Prop :=
  ∀ s : State,
    exec .tagCmd s = .next { s with frame := [0x00#8] } ∧
    exec .tagData s = .next { s with frame := [0x40#8] } ∧
    (∀ p, exec (.pageSel p) s = .next { s with frame := s.frame ++ [0xB0#8 ||| p.setWidth 8] }) ∧
    exec .colLowNormal s = .next { s with frame := s.frame ++ [0x00#8] } ∧
    exec .colLowVariant s = .next { s with frame := s.frame ++ [0x02#8] } ∧
    exec .colHigh s = .next { s with frame := s.frame ++ [0x10#8] } ∧
    (∀ v, exec (.multiplexOperand v) s = .next { s with frame := s.frame ++ [v.setWidth 8] }) ∧
    exec .displayOffsetValue s = .next { s with frame := s.frame ++ [0x00#8] } ∧
    exec .cpSelectExternal s = .next { s with frame := s.frame ++ [0x10#8] } ∧
    exec .contrast128x64Internal s = .next { s with frame := s.frame ++ [0xCF#8] } ∧
    exec .contrast128x64External s = .next { s with frame := s.frame ++ [0x9F#8] }

/-- R59: for `p < 16`, `PAGE_SEL(p)` is `0xB0 | p`, which is `0xB0 + p`, and distinct pages give distinct bytes. -/
def Obligations.PageSelectBytesAreDistinct : Prop :=
  ∀ p p' : Nat, p < 16 → p' < 16 → pageSelOf p = 0xB0#8 ||| BitVec.ofNat 8 p ∧
    (pageSelOf p).toNat = 0xB0 + p ∧ (pageSelOf p = pageSelOf p' → p = p')

/-- R61: the byte after CMD_SET_MULTIPLEX is the multiplex operand; for `1 <= H <= 128` it is `H - 1`, at most `0x7F`; for
`H = 64` it is `0x3F`. -/
def Obligations.MultiplexOperandIsHeightMinusOne : Prop :=
  ∀ (c : Config) (g : GeometryEntry) (pwr : PowerMode) (v : Byte),
    (frameBytes (initStream c g pwr v))[3]? = some c.commands.setMultiplex ∧
    (frameBytes (initStream c g pwr v))[4]? = some (multiplexByte c) ∧
    (1 ≤ c.height → c.height ≤ 128 → (multiplexByte c).toNat = c.height - 1 ∧
      (multiplexByte c).toNat ≤ 0x7F ∧ (c.height = 64 → multiplexByte c = 0x3F#8))

/-- R82, R42: while a frame is unanswered, the transport's answer decides the step. No answer: the block takes no step
(only the model's record of the environment moves on). `fail`: the answer is recorded and E_BUS is raised, and nothing
else changes. `ok`: the answer is recorded and the step is complete; SEQ goes to the next step, or the operation ends
after its last. -/
def Obligations.AnswerDecidesTheSend : Prop :=
  ∀ (s : State) op k f l e, AtStep s op k → sendFrame s op k = some f → s.trace = l ++ [e] → e.answer = .pending →
    ∃ t, step s = .next t ∧
      (transportSays s = .pending → t = { s with answers := t.answers, draws := t.draws }) ∧
      (transportSays s = .fail → t = afterFault .bus { s with
        trace := l ++ [{ e with answer := .fail }], answers := t.answers, draws := t.draws }) ∧
      (transportSays s = .ok → k + 1 < stepCount s.cfg op → t = { s with
        trace := l ++ [{ e with answer := .ok }], seq := .running op (k + 1),
        lc := (if op = .begin ∧ k + 1 = flushBase s.cfg then .handshakeSent else s.lc),
        answers := t.answers, draws := t.draws }) ∧
      (transportSays s = .ok → k + 1 = stepCount s.cfg op → op = .flush → t = afterOk false { s with
        trace := l ++ [{ e with answer := .ok }], seq := .idle,
        answers := t.answers, draws := t.draws }) ∧
      (transportSays s = .ok → k + 1 = stepCount s.cfg op → op = .begin → t = afterOk true { s with
        trace := l ++ [{ e with answer := .ok }], seq := .idle, lc := .displayOn,
        answers := t.answers, draws := t.draws })

/-- R41, R47: a step leaves the trace as it is, or answers its last, pending entry, or adds one pending entry; and it
adds one only when no frame is pending. No entry is ever lost or changed otherwise. The channel in an entry is the
model's record (assumption 19). -/
def Obligations.TraceGrowsOneFrameAtATime : Prop :=
  ∀ s t : State, step s = .next t →
    t.trace = s.trace ∨
    (∃ l e a, s.trace = l ++ [e] ∧ e.answer = .pending ∧ a ≠ .pending ∧
      t.trace = l ++ [{ e with answer := a }]) ∨
    ((∀ l e, s.trace = l ++ [e] → e.answer ≠ .pending) ∧
      t.trace = s.trace ++ [⟨s.cfg.busAddr, s.cfg.busChannel, s.frame, .pending⟩])

/-- R42, R47, R48: every frame but the last has been answered, and between operations the last one too; every step keeps
this. A step that issues a response leaves no frame of the trace unanswered. -/
def Obligations.IdleMeansEveryFrameAnswered : Prop :=
  ∀ s t : State, SequencerInv s → AnsweredInv s → step s = .next t → AnsweredInv t ∧
    (s.responses.length < t.responses.length → ∀ e ∈ t.trace, e.answer ≠ .pending)

/-- R56, R81, R79, R80: the framer is always idle or part-way through the frame of the step in progress, and every frame
in the trace has one tag and at least one byte after it, was sent to BUS_ADDR with BUS_CHANNEL (R9), and was answered
before the next one was offered; every step keeps this. The framer's fields are the model's own (assumption 6), and so
is the channel in a trace entry (assumption 19). -/
def Obligations.StepKeepsFramesWellFormed : Prop :=
  ∀ s t : State, FramerInv s ∧ TraceInv s → step s = .next t → FramerInv t ∧ TraceInv t

/-! ### Whole-machine rules -/

/-- R33, R38: every step keeps the memories in canonical form and inside their sizes. -/
def Obligations.StepKeepsMemoriesCanonical : Prop :=
  ∀ s t : State, MemoryInv s → step s = .next t → MemoryInv t

/-- R24, R25, R28, R29, R30: every step keeps LC, SEQ, BUSY, FB_VALID and FAULT consistent. -/
def Obligations.StepKeepsControlStateConsistent : Prop :=
  ∀ s t : State, FaultInv s ∧ BusyInv s ∧ SequencerInv s ∧ BufferInv s → step s = .next t →
    FaultInv t ∧ BusyInv t ∧ SequencerInv t ∧ BufferInv t

/-- The reset state meets every invariant. -/
def Obligations.ResetMeetsTheInvariants : Prop :=
  MemoryInv State.reset ∧ FaultInv State.reset ∧ BusyInv State.reset ∧ SequencerInv State.reset ∧
    BufferInv State.reset ∧ FramerInv State.reset ∧ TraceInv State.reset ∧ AnsweredInv State.reset

/-- R113: the reset values the spec gives. CONTRAST and PWR are unspecified there, and nothing is said of them here. -/
def Obligations.ResetValues : Prop :=
  State.reset.lc = .uninitialized ∧ State.reset.fbValid = false ∧ State.reset.orient = .identity ∧
    State.reset.seq = .idle ∧ State.reset.busy = false ∧ State.reset.faultValid = false ∧
    State.reset.faultCode = .none ∧ State.reset.trace = []

/-- R103: a step that records a fault sets the code, leaves the operation, clears BUSY and issues the fault's response;
LC, FB_VALID, CONTRAST and PWR keep their values, the trace changes only in the answer of a failed frame (R82), and the
framebuffer only by the pixels DRAW_BITMAP or a splash had drawn (R104). -/
def Obligations.FaultEntryRecordsAndHalts : Prop :=
  ∀ s t : State, step s = .next t → t.faultValid = true →
    s.faultValid = false ∧ t.faultCode ≠ .none ∧ t.seq = .idle ∧ t.busy = false ∧
    t.responses = s.responses ++ [faultResponse t.faultCode] ∧
    t.lc = s.lc ∧ t.fbValid = s.fbValid ∧ t.contrast = s.contrast ∧ t.pwr = s.pwr ∧
    (t.faultCode ≠ .srcRange → t.fb = s.fb) ∧
    (t.faultCode ≠ .bus → t.trace = s.trace) ∧
    (t.faultCode = .bus → ∃ l e, s.trace = l ++ [e] ∧ t.trace = l ++ [{ e with answer := .fail }])

/-- R24, R25, R26, R27: only BEGIN writes LC, FB_VALID, CONTRAST and PWR: a step that is neither the acceptance of a
BEGIN nor a step of one keeps all four. -/
def Obligations.OnlyBeginWritesTheContext : Prop :=
  ∀ s t : State, step s = .next t → (∀ k, s.seq ≠ .running .begin k) →
    (∀ q rest pm, Ready s q rest → decodeRequest q ≠ .ok (.begin pm)) →
    t.lc = s.lc ∧ t.fbValid = s.fbValid ∧ t.contrast = s.contrast ∧ t.pwr = s.pwr

/-- R38, R31, R6: no step changes the source memory, ORIENT or the configuration. -/
def Obligations.LaunchInputsNeverChange : Prop :=
  ∀ s t : State, step s = .next t → t.src = s.src ∧ t.orient = s.orient ∧ t.cfg = s.cfg

/-- R28: SEQ stays where it is, goes to the next step, or goes to IDLE, which it does only after the last step, on a
fault, or when BEGIN's allocation (its step 0) fails. -/
def Obligations.SequencerAdvancesByOne : Prop :=
  ∀ (s t : State) op k, AtStep s op k → step s = .next t →
    t.seq = .running op k ∨ t.seq = .running op (k + 1) ∨
      (t.seq = .idle ∧ (k + 1 = stepCount s.cfg op ∨ t.faultValid = true ∨ (op = .begin ∧ k = 0)))

/-- R55: the response word: `status` in bit 0, `code` in bits 4:1, `value` in bit 5. -/
def Obligations.ResponseWordLayout : Prop :=
  (∀ v : Bool, (respond (okWord v) State.reset).responses = [okResponse v] ∧
    (okWord v).getLsbD 0 = false ∧ (okWord v).extractLsb' 1 4 = 0#4 ∧ (okWord v).getLsbD 5 = v) ∧
  (∀ c : FaultCode, faultWord c = faultResponse c ∧ (faultWord c).getLsbD 0 = true ∧
    (faultWord c).extractLsb' 1 4 = faultBits c ∧ (faultWord c).getLsbD 5 = false)

/-- R9: a frame is offered with BUS_ADDR and BUS_CHANNEL, and the block never reads BUS_CHANNEL: with another channel,
every step does the same but for the channel passed along. That the trace records it is assumption 19. -/
def Obligations.BusChannelIsNeverRead : Prop :=
  (∀ (s t : State) e, step s = .next t → t.trace = s.trace ++ [e] →
    e.addr = s.cfg.busAddr ∧ e.channel = s.cfg.busChannel) ∧
  (∀ (s : State) (n : Nat), step (withChannel n s) =
    match step s with
    | .next t => .next (withChannel n t)
    | .fault r => .fault r
    | .refused r => .refused r)
end

