-- ==== Sys2Proof/Laws/Memory.lean ====
section
/-! SUPPORT. Laws/Memory.lean: what the byte-memory operations do, and that each keeps the canonical form. -/

namespace Sys2Proof.Machine

@[simp] theorem Memory.read_nil (a : Nat) : Memory.read [] a = 0#8 := rfl

theorem Memory.wf_cons {a : Nat} {v : Byte} {r : Memory} :
    Memory.wf ((a, v) :: r) = true ↔ v ≠ 0#8 ∧ (∀ c ∈ r, a < c.1) ∧ Memory.wf r = true := by
  simp [Memory.wf, and_assoc]

/-- Below every listed address a memory reads as unlisted. -/
theorem Memory.read_of_lt {m : Memory} {a : Nat} (h : ∀ c ∈ m, a < c.1) : Memory.read m a = 0#8 := by
  induction m with
  | nil => rfl
  | cons c r ih =>
    obtain ⟨b, u⟩ := c
    have hb : a < b := h (b, u) (by simp)
    rw [Memory.read, if_neg (by omega)]
    exact ih fun c hc => h c (by simp [hc])

/-- A read after a write gives the byte written, and every other address is left alone. -/
theorem Memory.read_write {m : Memory} (hm : Memory.wf m = true) (a b : Nat) (v : Byte) :
    Memory.read (Memory.write m a v) b = if b = a then v else Memory.read m b := by
  induction m with
  | nil =>
    by_cases hv : v = 0#8 <;> by_cases hb : b = a <;> simp [Memory.write, Memory.read, hv, hb]
  | cons c r ih =>
    obtain ⟨k, u⟩ := c
    obtain ⟨_, hk, hr⟩ := Memory.wf_cons.mp hm
    have ih := ih hr
    rcases Nat.lt_trichotomy a k with h | h | h
    · have hlow : ∀ c ∈ (k, u) :: r, a < c.1 := by
        intro c hc
        rcases List.mem_cons.mp hc with rfl | hc
        · exact h
        · exact Nat.lt_trans h (hk c hc)
      have h0 := Memory.read_of_lt hlow
      by_cases hv : v = 0#8
      · by_cases hb : b = a
        · simp [Memory.write, h, hv, hb, h0]
        · simp [Memory.write, h, hv, hb]
      · by_cases hb : b = a <;> simp [Memory.write, Memory.read, h, hv, hb]
    · subst h
      have h0 : Memory.read r a = 0#8 := Memory.read_of_lt hk
      by_cases hv : v = 0#8 <;> by_cases hb : b = a <;> simp [Memory.write, Memory.read, hv, hb, h0]
    · have h1 : ¬ a < k := by omega
      have h2 : a ≠ k := by omega
      by_cases hb : b = k
      · have : b ≠ a := by omega
        simp [Memory.write, Memory.read, h1, h2, hb]
        omega
      · simp [Memory.write, Memory.read, h1, h2, hb, ih]

theorem Memory.mem_write {m : Memory} {a : Nat} {v : Byte} {c : Host.Cell}
    (h : c ∈ Memory.write m a v) : c = (a, v) ∨ c ∈ m := by
  induction m with
  | nil =>
    by_cases hv : v = 0#8
    · simp [Memory.write, hv] at h
    · left; simpa [Memory.write, hv] using h
  | cons d r ih =>
    obtain ⟨k, u⟩ := d
    unfold Memory.write at h
    split at h
    · split at h
      · exact .inr h
      · simpa using h
    · split at h
      · split at h
        · exact .inr (List.mem_cons_of_mem _ h)
        · rcases List.mem_cons.mp h with h | h
          · exact .inl h
          · exact .inr (List.mem_cons_of_mem _ h)
      · rcases List.mem_cons.mp h with h | h
        · exact .inr (by simp [h])
        · exact (ih h).imp id fun h => List.mem_cons_of_mem _ h

/-- A write keeps the canonical form. -/
theorem Memory.wf_write {m : Memory} (hm : Memory.wf m = true) (a : Nat) (v : Byte) :
    Memory.wf (Memory.write m a v) = true := by
  induction m with
  | nil => by_cases hv : v = 0#8 <;> simp [Memory.write, Memory.wf, hv]
  | cons c r ih =>
    obtain ⟨k, u⟩ := c
    obtain ⟨hu, hk, hr⟩ := Memory.wf_cons.mp hm
    unfold Memory.write
    split
    · split
      · exact hm
      · rename_i hak hv
        refine Memory.wf_cons.mpr ⟨hv, ?_, hm⟩
        intro c hc
        rcases List.mem_cons.mp hc with rfl | hc
        · exact hak
        · exact Nat.lt_trans hak (hk c hc)
    · split
      · rename_i _ hak
        subst hak
        split
        · exact hr
        · rename_i hv
          exact Memory.wf_cons.mpr ⟨hv, hk, hr⟩
      · refine Memory.wf_cons.mpr ⟨hu, ?_, ih hr⟩
        intro c hc
        rcases Memory.mem_write hc with rfl | hc
        · show k < a; omega
        · exact hk c hc

theorem Memory.below_iff {m : Memory} {n : Nat} :
    Memory.below m n = true ↔ ∀ c ∈ m, c.1 < n := by
  simp [Memory.below]

/-- A write below `n` keeps every listed address below `n`. -/
theorem Memory.below_write {m : Memory} {n a : Nat} {v : Byte} (hm : Memory.below m n = true)
    (ha : a < n) : Memory.below (Memory.write m a v) n = true := by
  rw [Memory.below_iff] at hm ⊢
  intro c hc
  rcases Memory.mem_write hc with rfl | hc
  · exact ha
  · exact hm c hc

theorem Memory.mem_run {v : Byte} {a n : Nat} {c : Host.Cell} (h : c ∈ Memory.run v a n) :
    a ≤ c.1 ∧ c.1 < a + n := by
  induction n generalizing a with
  | zero => simp [Memory.run] at h
  | succ n ih =>
    rcases List.mem_cons.mp h with rfl | h
    · exact ⟨Nat.le_refl a, by show a < a + (n + 1); omega⟩
    · have := ih h; omega

theorem Memory.read_run_append {v : Byte} {r : Memory} (b a n : Nat) :
    Memory.read (Memory.run v a n ++ r) b = if a ≤ b ∧ b < a + n then v else Memory.read r b := by
  induction n generalizing a with
  | zero => simp [Memory.run]
  | succ n ih =>
    simp only [Memory.run, List.cons_append, Memory.read, ih]
    split_ifs <;> first | rfl | omega

theorem Memory.read_filter {m : Memory} (n b : Nat) :
    Memory.read (m.filter (fun c => decide (n ≤ c.1))) b = if n ≤ b then Memory.read m b else 0#8 := by
  induction m with
  | nil => simp
  | cons c r ih =>
    obtain ⟨k, u⟩ := c
    by_cases hk : n ≤ k
    · rw [List.filter_cons_of_pos (by simpa using hk)]
      simp only [Memory.read, ih]
      split_ifs <;> first | rfl | omega
    · rw [List.filter_cons_of_neg (by simpa using hk), ih]
      simp only [Memory.read]
      split_ifs <;> first | rfl | omega

/-- A fill gives every address below `n` the byte, and leaves the others alone. -/
theorem Memory.read_fill {m : Memory} (n : Nat) (v : Byte) (b : Nat) :
    Memory.read (Memory.fill n v m) b = if b < n then v else Memory.read m b := by
  unfold Memory.fill
  split
  · rename_i hv
    rw [List.nil_append, Memory.read_filter]
    split_ifs <;> first | omega | rfl | exact hv.symm
  · rw [Memory.read_run_append, Memory.read_filter]
    split_ifs <;> first | omega | rfl

theorem Memory.wf_filter {m : Memory} (hm : Memory.wf m = true) (n : Nat) :
    Memory.wf (m.filter (fun c => decide (n ≤ c.1))) = true := by
  induction m with
  | nil => rfl
  | cons c r ih =>
    obtain ⟨k, u⟩ := c
    obtain ⟨hu, hk, hr⟩ := Memory.wf_cons.mp hm
    by_cases hn : n ≤ k
    · rw [List.filter_cons_of_pos (by simpa using hn)]
      exact Memory.wf_cons.mpr ⟨hu, fun c hc => hk c (List.mem_of_mem_filter hc), ih hr⟩
    · rw [List.filter_cons_of_neg (by simpa using hn)]
      exact ih hr

theorem Memory.wf_run_append {v : Byte} {r : Memory} (hv : v ≠ 0#8) (hr : Memory.wf r = true) (a n : Nat)
    (h : ∀ c ∈ r, a + n ≤ c.1) : Memory.wf (Memory.run v a n ++ r) = true := by
  induction n generalizing a with
  | zero => simpa [Memory.run] using hr
  | succ n ih =>
    refine Memory.wf_cons.mpr ⟨hv, ?_, ih (a + 1) fun c hc => by have := h c hc; omega⟩
    intro c hc
    rcases List.mem_append.mp hc with hc | hc
    · have := Memory.mem_run hc; omega
    · have := h c hc; omega

/-- A fill keeps the canonical form. -/
theorem Memory.wf_fill {m : Memory} (hm : Memory.wf m = true) (n : Nat) (v : Byte) :
    Memory.wf (Memory.fill n v m) = true := by
  unfold Memory.fill
  split
  · exact Memory.wf_filter hm n
  · rename_i hv
    refine Memory.wf_run_append hv (Memory.wf_filter hm n) 0 n fun c hc => ?_
    simpa using (List.mem_filter.mp hc).2

/-- A fill below `n` lists no address outside a memory of `n` bytes. -/
theorem Memory.below_fill {m : Memory} {n : Nat} (hm : Memory.below m n = true) (v : Byte) :
    Memory.below (Memory.fill n v m) n = true := by
  rw [Memory.below_iff] at hm ⊢
  intro c hc
  rcases List.mem_append.mp hc with hc | hc
  · split at hc
    · cases hc
    · have := Memory.mem_run hc; omega
  · exact hm c (List.mem_of_mem_filter hc)

end Sys2Proof.Machine
end

