-- ==== Sys2Proof/Laws/Pixels.lean ====
section
/-! SUPPORT. Laws/Pixels.lean: the colour law on bytes, the addressing law, and what one pixel write does. -/

namespace Sys2Proof.Machine

theorem getLsbD_oneBit {b k : Nat} (hb : b < 8) : ((1#8 <<< b) : Byte).getLsbD k = decide (k = b) := by
  by_cases hk : k < 8
  · interval_cases b <;> interval_cases k <;> rfl
  · rw [BitVec.getLsbD_of_ge _ _ (by omega)]
    symm
    rw [decide_eq_false_iff_not]
    omega

/-- The colour law: the addressed bit takes the colour, every other bit is kept (R70, R72). -/
theorem getLsbD_applyColor (c : Color) (v : Byte) {b : Nat} (hb : b < 8) (k : Nat) :
    (applyColor c v b).getLsbD k = if k = b then colorBit c (v.getLsbD k) else v.getLsbD k := by
  by_cases hk : k < 8
  · cases c <;>
      simp only [applyColor, BitVec.getLsbD_or, BitVec.getLsbD_and, BitVec.getLsbD_xor,
        BitVec.getLsbD_not, getLsbD_oneBit hb] <;>
      by_cases h : k = b <;> simp [h, hb, hk, colorBit]
  · have hne : k ≠ b := by omega
    rw [if_neg hne, BitVec.getLsbD_of_ge _ _ (by omega), BitVec.getLsbD_of_ge _ _ (by omega)]

@[simp] theorem orientXY_eq (o : Orientation) (x y : Int) : orientXY o x y = (x, y) := by
  cases o <;> rfl

theorem inRange_iff {c : Config} {x y : Int} :
    inRange c x y = true ↔ 0 ≤ x ∧ x < c.width ∧ 0 ≤ y ∧ y < c.height := by
  simp [inRange, and_assoc]

theorem pixelBit_lt (y : Int) : pixelBit y < 8 := Nat.mod_lt _ (by decide)

/-- The byte index of an in-range pixel lies in the framebuffer (R35). -/
theorem pixelIndex_lt {c : Config} {x y : Int} (h : inRange c x y = true) :
    pixelIndex c x y < nFb c := by
  obtain ⟨hx0, hx, hy0, hy⟩ := inRange_iff.mp h
  have hxn : x.toNat < c.width := by omega
  have hyn : y.toNat / 8 < pages c := by unfold pages; omega
  unfold pixelIndex nFb
  calc x.toNat + y.toNat / 8 * c.width < c.width + y.toNat / 8 * c.width := by omega
    _ = (y.toNat / 8 + 1) * c.width := by ring
    _ ≤ pages c * c.width := Nat.mul_le_mul_right _ hyn
    _ = c.width * pages c := Nat.mul_comm _ _

/-- `Addr` is one-to-one on the in-range pixels (R35). -/
theorem pixel_injective {c : Config} {x y x' y' : Int} (h : inRange c x y = true)
    (h' : inRange c x' y' = true) (hi : pixelIndex c x y = pixelIndex c x' y')
    (hb : pixelBit y = pixelBit y') : x = x' ∧ y = y' := by
  obtain ⟨hx0, hx, hy0, hy⟩ := inRange_iff.mp h
  obtain ⟨hx0', hx', hy0', hy'⟩ := inRange_iff.mp h'
  have hxn : x.toNat < c.width := by omega
  have hxn' : x'.toNat < c.width := by omega
  unfold pixelIndex at hi
  unfold pixelBit at hb
  have hm : x.toNat = x'.toNat := by
    have := congrArg (· % c.width) hi
    simpa [Nat.add_mul_mod_self_right, Nat.mod_eq_of_lt hxn, Nat.mod_eq_of_lt hxn'] using this
  have hd : y.toNat / 8 = y'.toNat / 8 := by
    have h1 : y.toNat / 8 * c.width = y'.toNat / 8 * c.width := by omega
    exact Nat.eq_of_mul_eq_mul_right (by omega) h1
  omega

/-- One pixel write, bit by bit (R70): the addressed bit of the addressed byte takes the colour, if the pixel is
in range; every other bit of every byte is kept. -/
theorem writePixelCore_bit {fb : Memory} (hfb : Memory.wf fb = true) (c : Config) (o : Orientation)
    (x y : Int) (color : Color) (a k : Nat) :
    (Memory.read (writePixelCore c o fb x y color) a).getLsbD k =
      if inRange c x y = true ∧ a = pixelIndex c x y ∧ k = pixelBit y then
        colorBit color ((Memory.read fb a).getLsbD k)
      else (Memory.read fb a).getLsbD k := by
  unfold writePixelCore
  simp only [orientXY_eq]
  by_cases h : inRange c x y = true
  · rw [if_pos h, Memory.read_write hfb]
    by_cases ha : a = pixelIndex c x y
    · subst ha
      rw [if_pos rfl, getLsbD_applyColor _ _ (pixelBit_lt y)]
      by_cases hk : k = pixelBit y <;> simp [h, hk]
    · simp [ha]
  · simp [h]

theorem wf_writePixelCore {fb : Memory} (hfb : Memory.wf fb = true) (c : Config) (o : Orientation)
    (x y : Int) (color : Color) : Memory.wf (writePixelCore c o fb x y color) = true := by
  unfold writePixelCore
  simp only [orientXY_eq]
  split
  · exact Memory.wf_write hfb _ _
  · exact hfb

theorem below_writePixelCore {c : Config} {fb : Memory} (hfb : Memory.below fb (nFb c) = true)
    (o : Orientation) (x y : Int) (color : Color) :
    Memory.below (writePixelCore c o fb x y color) (nFb c) = true := by
  unfold writePixelCore
  simp only [orientXY_eq]
  split
  · exact Memory.below_write hfb (pixelIndex_lt ‹_›)
  · exact hfb

/-- READ_PIXEL's bit, in and out of range (R71). -/
theorem readPixelCore_eq (c : Config) (o : Orientation) (fb : Memory) (x y : Int) :
    readPixelCore c o fb x y = if inRange c x y = true then
      (Memory.read fb (pixelIndex c x y)).getLsbD (pixelBit y) else false := by
  simp [readPixelCore]

/-- Two memories in canonical form that read alike are equal. -/
theorem Memory.ext_read {m n : Memory} (hm : Memory.wf m = true) (hn : Memory.wf n = true)
    (h : ∀ a, Memory.read m a = Memory.read n a) : m = n := by
  induction m generalizing n with
  | nil =>
    cases n with
    | nil => rfl
    | cons d r =>
      obtain ⟨k, u⟩ := d
      obtain ⟨hu, _, _⟩ := Memory.wf_cons.mp hn
      exact absurd (by simpa [Memory.read] using (h k).symm) hu
  | cons c r ih =>
    obtain ⟨a, v⟩ := c
    obtain ⟨hv, ha, hr⟩ := Memory.wf_cons.mp hm
    cases n with
    | nil => exact absurd (by simpa [Memory.read] using h a) hv
    | cons d q =>
      obtain ⟨b, u⟩ := d
      obtain ⟨hu, hb, hq⟩ := Memory.wf_cons.mp hn
      have hab : a = b := by
        rcases Nat.lt_trichotomy a b with hlt | heq | hgt
        · have h1 := h a
          rw [Memory.read_of_lt (m := (b, u) :: q) (a := a)] at h1
          · exact absurd (by simpa [Memory.read] using h1) hv
          · intro c hc
            rcases List.mem_cons.mp hc with rfl | hc
            · exact hlt
            · exact Nat.lt_trans hlt (hb c hc)
        · exact heq
        · have h1 := h b
          rw [Memory.read_of_lt (m := (a, v) :: r) (a := b)] at h1
          · exact absurd (by simpa [Memory.read] using h1.symm) hu
          · intro c hc
            rcases List.mem_cons.mp hc with rfl | hc
            · exact hgt
            · exact Nat.lt_trans hgt (ha c hc)
      subst hab
      have hvu : v = u := by simpa [Memory.read] using h a
      subst hvu
      have : r = q := ih hr hq fun k => by
        by_cases hk : k = a
        · subst hk
          rw [Memory.read_of_lt ha, Memory.read_of_lt hb]
        · simpa [Memory.read, hk] using h k
      rw [this]

end Sys2Proof.Machine
end

