-- ==== Sys2Proof/Laws/Blit.lean ====
section
/-! SUPPORT. Laws/Blit.lean: the framebuffer a blit leaves (drawn whole or cut short), and when it is cut short. -/

namespace Sys2Proof.Machine

/-- The framebuffer a blit leaves. -/
def BlitResult.fb : BlitResult → Memory
  | .done fb => fb
  | .srcRange fb => fb

@[simp] theorem BlitResult.fb_done (fb : Memory) : (BlitResult.done fb).fb = fb := rfl
@[simp] theorem BlitResult.fb_srcRange (fb : Memory) : (BlitResult.srcRange fb).fb = fb := rfl

/-- Anything one pixel write keeps, a blit keeps: it holds of the framebuffer the blit leaves. -/
theorem blitCols_keeps {P : Memory → Prop} (s : State) (x y : Int) (row : Nat) (color : Color)
    (hP : ∀ fb px py, P fb → P (writePixelCore s.cfg s.orient fb px py color)) (n i : Nat)
    {fb : Memory} (h : P fb) : P (blitCols s x y row color n i fb).fb := by
  induction n generalizing i fb with
  | zero => exact h
  | succ n ih =>
    unfold blitCols
    split
    · exact h
    · refine ih (i + 1) ?_
      split
      · exact hP _ _ _ h
      · exact h

theorem blitRows_keeps {P : Memory → Prop} (s : State) (x y : Int) (src w : Nat) (color : Color)
    (hP : ∀ fb px py, P fb → P (writePixelCore s.cfg s.orient fb px py color)) (n j : Nat)
    {fb : Memory} (h : P fb) : P (blitRows s x y src w color n j fb).fb := by
  induction n generalizing j fb with
  | zero => exact h
  | succ n ih =>
    have hrow := blitCols_keeps s x (y + j) (src + j * byteWidth w) color hP w 0 h
    unfold blitRows
    split
    · rename_i fb' e
      rwa [e] at hrow
    · rename_i fb' e
      rw [e] at hrow
      exact ih (j + 1) hrow

theorem blit_keeps {P : Memory → Prop} (s : State) (x y : Int) (src : Nat) (w h : Int) (color : Color)
    (hP : ∀ fb px py, P fb → P (writePixelCore s.cfg s.orient fb px py color)) (h0 : P s.fb) :
    P (blit s x y src w h color).fb := by
  unfold blit
  split
  · exact h0
  · exact blitRows_keeps s x y src w.toNat color hP h.toNat 0 h0

theorem wf_blit (s : State) (x y : Int) (src : Nat) (w h : Int) (color : Color)
    (hs : Memory.wf s.fb = true) : Memory.wf (blit s x y src w h color).fb = true :=
  blit_keeps s x y src w h color (P := fun m => Memory.wf m = true)
    (fun _ px py h => wf_writePixelCore h _ _ px py color) hs

theorem below_blit (s : State) (x y : Int) (src : Nat) (w h : Int) (color : Color)
    (hs : Memory.below s.fb (nFb s.cfg) = true) :
    Memory.below (blit s x y src w h color).fb (nFb s.cfg) = true :=
  blit_keeps s x y src w h color (P := fun m => Memory.below m (nFb s.cfg) = true)
    (fun _ px py h => below_writePixelCore h _ px py color) hs

/-- A row whose columns are all inside the source memory is drawn whole. -/
theorem blitCols_done (s : State) (x y : Int) (row : Nat) (color : Color) (n i : Nat) (fb : Memory)
    (h : ∀ c, i ≤ c → c < i + n → row + c / 8 < s.cfg.srcSize) :
    ∃ fb', blitCols s x y row color n i fb = .done fb' := by
  induction n generalizing i fb with
  | zero => exact ⟨fb, rfl⟩
  | succ n ih =>
    unfold blitCols
    have h0 : row + i / 8 < s.cfg.srcSize := h i (by omega) (by omega)
    simp only [srcRead, h0, if_true]
    exact ih (i + 1) _ fun c h1 h2 => h c (by omega) (by omega)

/-- The row's last byte holds its last column (R77). -/
theorem byteWidth_last {w : Nat} (hw : 0 < w) : (w - 1) / 8 + 1 = byteWidth w := by
  unfold byteWidth; omega

theorem blitRows_done (s : State) (x y : Int) (src w : Nat) (color : Color) (n j : Nat) (fb : Memory)
    (h : src + (j + n) * byteWidth w ≤ s.cfg.srcSize) :
    ∃ fb', blitRows s x y src w color n j fb = .done fb' := by
  induction n generalizing j fb with
  | zero => exact ⟨fb, rfl⟩
  | succ n ih =>
    unfold blitRows
    obtain ⟨fb', e⟩ := blitCols_done s x (y + j) (src + j * byteWidth w) color w 0 fb (by
      intro c _ hc
      have h1 : c / 8 + 1 ≤ byteWidth w := by unfold byteWidth; omega
      have h2 : (j + 1) * byteWidth w ≤ (j + (n + 1)) * byteWidth w :=
        Nat.mul_le_mul_right _ (by omega)
      have h3 : (j + 1) * byteWidth w = j * byteWidth w + byteWidth w := by ring
      omega)
    rw [e]
    exact ih (j + 1) fb' (by
      have : (j + 1 + n) * byteWidth w = (j + (n + 1)) * byteWidth w := by ring
      omega)

/-- A blit whose source bytes all lie inside the source memory is drawn whole (R78). -/
theorem blit_done (s : State) (x y : Int) (src : Nat) (w h : Int) (color : Color)
    (hin : w ≤ 0 ∨ h ≤ 0 ∨ src + h.toNat * byteWidth w.toNat ≤ s.cfg.srcSize) :
    ∃ fb', blit s x y src w h color = .done fb' := by
  unfold blit
  by_cases h0 : w ≤ 0 ∨ h ≤ 0
  · exact ⟨s.fb, if_pos h0⟩
  · rw [if_neg h0]
    refine blitRows_done s x y src w.toNat color h.toNat 0 s.fb ?_
    rw [Nat.zero_add]
    rcases hin with hw | hh | hi
    · exact absurd (.inl hw) h0
    · exact absurd (.inr hh) h0
    · exact hi

end Sys2Proof.Machine
end

