-- ==== Sys2Proof/Laws/BlitPixels.lean ====
section
/-! SUPPORT. Laws/BlitPixels.lean: a blit pixel by pixel, and when it is drawn whole (spec/41_bitmap.md). -/

namespace Sys2Proof.Machine

/-- The bit of a pixel (R35). -/
abbrev pixelAt (c : Config) (fb : Memory) (X Y : Int) : Bool :=
  (Memory.read fb (pixelIndex c X Y)).getLsbD (pixelBit Y)

/-- One pixel write, pixel by pixel (R70). -/
theorem pixelAt_write {fb : Memory} (hw : Memory.wf fb = true) (c : Config) (o : Orientation) (x y : Int)
    (col : Color) {X Y : Int} (hr : inRange c X Y = true) :
    pixelAt c (writePixelCore c o fb x y col) X Y =
      if X = x ∧ Y = y then colorBit col (pixelAt c fb X Y) else pixelAt c fb X Y := by
  unfold pixelAt
  rw [writePixelCore_bit hw]
  by_cases h : X = x ∧ Y = y
  · obtain ⟨rfl, rfl⟩ := h
    simp [hr]
  · rw [if_neg h, if_neg]
    rintro ⟨h1, h2, h3⟩
    exact h (pixel_injective hr h1 h2 h3)

/-- Column `m` of the row at `row` is inside the source memory and its bit is set (R77). -/
abbrev sourceOn (s : State) (row m : Nat) : Prop :=
  row + m / 8 < s.cfg.srcSize ∧ srcBit (Memory.read s.src (row + m / 8)) m = true

open scoped Classical in
/-- One row, pixel by pixel: a covered pixel whose source bit is set takes the colour (R77). -/
theorem blitCols_pixel (s : State) (x y : Int) (row : Nat) (col : Color) (X Y : Int)
    (hr : inRange s.cfg X Y = true) (n i : Nat) (fb : Memory) (hw : Memory.wf fb = true) :
    pixelAt s.cfg (blitCols s x y row col n i fb).fb X Y =
      if (∃ m, i ≤ m ∧ m < i + n ∧ X = x + m ∧ Y = y ∧ sourceOn s row m) then
        colorBit col (pixelAt s.cfg fb X Y)
      else pixelAt s.cfg fb X Y := by
  induction n generalizing i fb with
  | zero => rw [if_neg]; rfl; rintro ⟨m, h1, h2, _⟩; omega
  | succ n ih =>
    unfold blitCols
    by_cases hs : row + i / 8 < s.cfg.srcSize
    · simp only [srcRead, hs, if_true]
      rw [ih]
      · by_cases hb : srcBit (Memory.read s.src (row + i / 8)) i = true
        · simp only [hb, if_true]
          rw [pixelAt_write hw _ _ _ _ _ hr]
          by_cases h1 : X = x + i ∧ Y = y
          · rw [if_pos h1]
            rw [if_neg, if_pos ⟨i, le_refl _, by omega, h1.1, h1.2, hs, hb⟩]
            rintro ⟨m, h2, h3, h4, _⟩
            omega
          · rw [if_neg h1]
            congr 1
            apply propext
            constructor
            · rintro ⟨m, a, b, c⟩; exact ⟨m, by omega, by omega, c⟩
            · rintro ⟨m, a, b, c⟩
              refine ⟨m, ?_, by omega, c⟩
              by_contra hm
              have : m = i := by omega
              subst this
              exact h1 ⟨c.1, c.2.1⟩
        · simp only [hb]
          congr 1
          apply propext
          constructor
          · rintro ⟨m, a, b, c⟩; exact ⟨m, by omega, by omega, c⟩
          · rintro ⟨m, a, b, c⟩
            refine ⟨m, ?_, by omega, c⟩
            by_contra hm
            have : m = i := by omega
            subst this
            exact hb c.2.2.2
      · split
        · exact wf_writePixelCore hw _ _ _ _ _
        · exact hw
    · simp only [srcRead, hs, if_false]
      rw [if_neg]; rfl
      rintro ⟨m, a, b, _, _, c, _⟩
      omega

/-- A row that is cut short has a column outside the source memory (R77). -/
theorem blitCols_srcRange (s : State) (x y : Int) (row : Nat) (col : Color) (n i : Nat) (fb fb' : Memory)
    (h : blitCols s x y row col n i fb = .srcRange fb') :
    ∃ m, i ≤ m ∧ m < i + n ∧ s.cfg.srcSize ≤ row + m / 8 := by
  induction n generalizing i fb with
  | zero => simp [blitCols] at h
  | succ n ih =>
    unfold blitCols at h
    by_cases hs : row + i / 8 < s.cfg.srcSize
    · simp only [srcRead, hs, if_true] at h
      obtain ⟨m, a, b, c⟩ := ih _ _ h
      exact ⟨m, by omega, by omega, c⟩
    · exact ⟨i, by omega, by omega, by omega⟩

/-- A row drawn whole has every column inside the source memory (R78). -/
theorem blitCols_done_inside (s : State) (x y : Int) (row : Nat) (col : Color) (n i : Nat) (fb fb' : Memory)
    (h : blitCols s x y row col n i fb = .done fb') :
    ∀ m, i ≤ m → m < i + n → row + m / 8 < s.cfg.srcSize := by
  induction n generalizing i fb with
  | zero => intro m; omega
  | succ n ih =>
    unfold blitCols at h
    by_cases hs : row + i / 8 < s.cfg.srcSize
    · simp only [srcRead, hs, if_true] at h
      intro m a b
      by_cases hm : m = i
      · subst hm; exact hs
      · exact ih _ _ h m (by omega) (by omega)
    · simp [srcRead, hs] at h

open scoped Classical in
/-- All rows, pixel by pixel. The source addresses rise, so a blit cut short misses exactly the columns outside the
source memory (R77, R104). -/
theorem blitRows_pixel (s : State) (x y : Int) (src w : Nat) (col : Color) (X Y : Int)
    (hr : inRange s.cfg X Y = true) (n j : Nat) (fb : Memory) (hw : Memory.wf fb = true) :
    pixelAt s.cfg (blitRows s x y src w col n j fb).fb X Y =
      if (∃ l m, j ≤ l ∧ l < j + n ∧ m < w ∧ X = x + (m : Nat) ∧ Y = y + (l : Nat) ∧
          sourceOn s (src + l * byteWidth w) m) then
        colorBit col (pixelAt s.cfg fb X Y)
      else pixelAt s.cfg fb X Y := by
  induction n generalizing j fb with
  | zero => rw [if_neg]; rfl; rintro ⟨l, m, h1, h2, _⟩; omega
  | succ n ih =>
    have hcol := blitCols_pixel s x (y + j) (src + j * byteWidth w) col X Y hr w 0 fb hw
    have hwf := blitCols_keeps s x (y + j) (src + j * byteWidth w) col (P := fun m => Memory.wf m = true)
      (fun _ px py h => wf_writePixelCore h _ _ px py col) w 0 hw
    unfold blitRows
    cases hc : blitCols s x (y + j) (src + j * byteWidth w) col w 0 fb with
    | srcRange fb' =>
      rw [hc] at hcol
      simp only
      rw [hcol]
      congr 1
      apply propext
      constructor
      · rintro ⟨m, a, b, c, d, e⟩; exact ⟨j, m, le_refl _, by omega, by omega, c, d, e⟩
      · rintro ⟨l, m, a, b, c, d, e, f⟩
        obtain ⟨m', g1, g2, g3⟩ := blitCols_srcRange _ _ _ _ _ _ _ _ _ hc
        by_cases hl : l = j
        · subst hl; exact ⟨m, by omega, by omega, d, e, f⟩
        · exfalso
          have f1 := f.1
          have : m' / 8 < byteWidth w := by unfold byteWidth; omega
          have h2 : (j + 1) * byteWidth w ≤ l * byteWidth w := Nat.mul_le_mul_right _ (by omega)
          have h3 : (j + 1) * byteWidth w = j * byteWidth w + byteWidth w := by ring
          omega
    | done fb' =>
      rw [hc] at hcol hwf
      simp only
      rw [ih (j + 1) fb' hwf]
      simp only [BlitResult.fb_done] at hcol
      rw [hcol]
      by_cases h1 : ∃ m, 0 ≤ m ∧ m < 0 + w ∧ X = x + (m : Nat) ∧ Y = y + (j : Nat) ∧
          sourceOn s (src + j * byteWidth w) m
      · rw [if_pos h1, if_neg, if_pos]
        · obtain ⟨m, a, b, c, d, e⟩ := h1
          exact ⟨j, m, le_refl _, by omega, by omega, c, d, e⟩
        · rintro ⟨l, m, a, b, c, d, e, f⟩
          obtain ⟨m', _, _, _, g, _⟩ := h1
          omega
      · rw [if_neg h1]
        congr 1
        apply propext
        constructor
        · rintro ⟨l, m, a, b, c, d, e, f⟩; exact ⟨l, m, by omega, by omega, c, d, e, f⟩
        · rintro ⟨l, m, a, b, c, d, e, f⟩
          refine ⟨l, m, ?_, by omega, c, d, e, f⟩
          by_contra hl
          have : l = j := by omega
          subst this
          exact h1 ⟨m, by omega, by omega, d, e, f⟩

/-- A blit drawn whole has every source byte inside the source memory (R78). -/
theorem blitRows_done_inside (s : State) (x y : Int) (src w : Nat) (col : Color) (n j : Nat) (fb fb' : Memory)
    (h : blitRows s x y src w col n j fb = .done fb') :
    ∀ l m, j ≤ l → l < j + n → m < w → src + l * byteWidth w + m / 8 < s.cfg.srcSize := by
  induction n generalizing j fb with
  | zero => intro l m; omega
  | succ n ih =>
    unfold blitRows at h
    cases hc : blitCols s x (y + j) (src + j * byteWidth w) col w 0 fb with
    | srcRange fb' => rw [hc] at h; cases h
    | done fb1 =>
      rw [hc] at h
      intro l m a b c
      by_cases hl : l = j
      · subst hl; exact blitCols_done_inside _ _ _ _ _ _ _ _ _ hc m (by omega) (by omega)
      · exact ih _ _ h l m (by omega) (by omega) c

end Sys2Proof.Machine
end

