-- ==== Sys2Proof/Laws/Encoding.lean ====
section
/-! SUPPORT. Laws/Encoding.lean: the fields of a packed request word are the fields packed (R50), and the small
codes go both ways. -/

namespace Sys2Proof

section
variable (src : BitVec 32) (h w y x : BitVec 16) (pm : BitVec 1) (color : BitVec 2) (op : BitVec 4)

/-- Bit `i` of a packed request word. -/
theorem getLsbD_pack (i : Nat) : (packRequest src h w y x pm color op).getLsbD i =
    if i < 4 then op.getLsbD i
    else if i < 6 then color.getLsbD (i - 4)
    else if i < 7 then pm.getLsbD (i - 6)
    else if i < 8 then false
    else if i < 24 then x.getLsbD (i - 8)
    else if i < 40 then y.getLsbD (i - 24)
    else if i < 56 then w.getLsbD (i - 40)
    else if i < 72 then h.getLsbD (i - 56)
    else if i < 104 then src.getLsbD (i - 72)
    else false := by
  have e : (packRequest src h w y x pm color op).getLsbD i =
      ((0#24 ++ (src ++ (h ++ (w ++ (y ++ (x ++ (0#1 ++ (pm ++ (color ++ op))))))))) :
        BitVec (24 + (32 + (16 + (16 + (16 + (16 + (1 + (1 + (2 + 4)))))))))).getLsbD i := rfl
  rw [e]
  simp only [BitVec.getLsbD_append]
  split_ifs <;> first | omega | simp

/-- A field cut out of a packed word, bit by bit. -/
theorem extract_pack {n : Nat} (at_ : Nat) (f : BitVec n)
    (hf : ∀ i, i < n → (packRequest src h w y x pm color op).getLsbD (at_ + i) = f.getLsbD i) :
    (packRequest src h w y x pm color op).extractLsb' at_ n = f := by
  apply BitVec.eq_of_getLsbD_eq
  intro i hi
  rw [BitVec.getLsbD_extractLsb', hf i hi]
  simp [hi]

@[simp] theorem qOp_pack : qOp (packRequest src h w y x pm color op) = op := by
  refine extract_pack _ _ _ _ _ _ _ _ 0 op fun i hi => ?_
  rw [getLsbD_pack]; split_ifs <;> first | omega | (congr 1; omega)

@[simp] theorem qColor_pack : qColor (packRequest src h w y x pm color op) = color := by
  refine extract_pack _ _ _ _ _ _ _ _ 4 color fun i hi => ?_
  rw [getLsbD_pack]; split_ifs <;> first | omega | (congr 1; omega)

@[simp] theorem qPm_pack : qPm (packRequest src h w y x pm color op) = pm := by
  refine extract_pack _ _ _ _ _ _ _ _ 6 pm fun i hi => ?_
  rw [getLsbD_pack]; split_ifs <;> first | omega | (congr 1; omega)

@[simp] theorem qReservedLo_pack : qReservedLo (packRequest src h w y x pm color op) = 0#1 := by
  refine extract_pack _ _ _ _ _ _ _ _ 7 0#1 fun i hi => ?_
  rw [getLsbD_pack]; split_ifs <;> first | omega | simp

@[simp] theorem qX_pack : qX (packRequest src h w y x pm color op) = x := by
  refine extract_pack _ _ _ _ _ _ _ _ 8 x fun i hi => ?_
  rw [getLsbD_pack]; split_ifs <;> first | omega | (congr 1; omega)

@[simp] theorem qY_pack : qY (packRequest src h w y x pm color op) = y := by
  refine extract_pack _ _ _ _ _ _ _ _ 24 y fun i hi => ?_
  rw [getLsbD_pack]; split_ifs <;> first | omega | (congr 1; omega)

@[simp] theorem qW_pack : qW (packRequest src h w y x pm color op) = w := by
  refine extract_pack _ _ _ _ _ _ _ _ 40 w fun i hi => ?_
  rw [getLsbD_pack]; split_ifs <;> first | omega | (congr 1; omega)

@[simp] theorem qH_pack : qH (packRequest src h w y x pm color op) = h := by
  refine extract_pack _ _ _ _ _ _ _ _ 56 h fun i hi => ?_
  rw [getLsbD_pack]; split_ifs <;> first | omega | (congr 1; omega)

@[simp] theorem qSrc_pack : qSrc (packRequest src h w y x pm color op) = src := by
  refine extract_pack _ _ _ _ _ _ _ _ 72 src fun i hi => ?_
  rw [getLsbD_pack]; split_ifs <;> first | omega | (congr 1; omega)

@[simp] theorem qReservedHi_pack : qReservedHi (packRequest src h w y x pm color op) = 0#24 := by
  refine extract_pack _ _ _ _ _ _ _ _ 104 0#24 fun i hi => ?_
  rw [getLsbD_pack]; split_ifs <;> first | omega | simp

end

@[simp] theorem colorOfCode_codeOfColor (c : ColorCode) : colorOfCode (codeOfColor c) = c := by
  rcases c with (_ | _ | _) | _ <;> rfl

@[simp] theorem codeOfColor_colorOfCode (b : BitVec 2) : codeOfColor (colorOfCode b) = b := by
  revert b; decide

@[simp] theorem powerModeOfCode_codeOfPowerMode (p : PowerMode) :
    powerModeOfCode (codeOfPowerMode p) = p := by
  cases p <;> rfl

/-- The bits PAGE_SEL fixes, and its page field (R59). -/
theorem pageSelByte_fields (p : BitVec 4) :
    (pageSelByte p).extractLsb' 4 4 = 0xB#4 ∧ (pageSelByte p).extractLsb' 0 4 = p := by
  revert p; decide

/-- The bits MULTIPLEX_OPERAND fixes, and its operand field (R61). -/
theorem multiplexOperand_fields (v : BitVec 7) :
    (v.setWidth 8).extractLsb' 7 1 = 0#1 ∧ (v.setWidth 8).extractLsb' 0 7 = v := by
  revert v; decide

/-- A request word never decodes to a wire byte. -/
theorem decodeRequest_request {q : RequestWord} {i : Instr} (h : decodeRequest q = .ok i) :
    ∃ r, encode i = .request r := by
  unfold decodeRequest at h
  repeat' split at h
  all_goals first | (cases h; done) | (injection h with h; subst h; exact ⟨_, rfl⟩)

/-- A wire byte never decodes to a request. -/
theorem decodeWire_wire {b : WireByte} {i : Instr} (h : decodeWire b = .ok i) :
    ∃ c, encode i = .wire c := by
  unfold decodeWire at h
  repeat' split at h
  all_goals first | (cases h; done) | (injection h with h; subst h; exact ⟨_, rfl⟩)

end Sys2Proof
end

