-- ==== Sys2Proof/Laws/State.lean ====
section
/-! SUPPORT. Laws/State.lean: for each named update of the state, what it leaves in every field, so that no later
proof unfolds a record update. -/

namespace Sys2Proof.Machine

/-! ### respond -/
@[simp] theorem respond_cfg (r : ResponseWord) (s : State) : (respond r s).cfg = s.cfg := rfl
@[simp] theorem respond_lc (r : ResponseWord) (s : State) : (respond r s).lc = s.lc := rfl
@[simp] theorem respond_fb (r : ResponseWord) (s : State) : (respond r s).fb = s.fb := rfl
@[simp] theorem respond_fbValid (r : ResponseWord) (s : State) : (respond r s).fbValid = s.fbValid := rfl
@[simp] theorem respond_contrast (r : ResponseWord) (s : State) : (respond r s).contrast = s.contrast := rfl
@[simp] theorem respond_pwr (r : ResponseWord) (s : State) : (respond r s).pwr = s.pwr := rfl
@[simp] theorem respond_seq (r : ResponseWord) (s : State) : (respond r s).seq = s.seq := rfl
@[simp] theorem respond_faultValid (r : ResponseWord) (s : State) : (respond r s).faultValid = s.faultValid := rfl
@[simp] theorem respond_faultCode (r : ResponseWord) (s : State) : (respond r s).faultCode = s.faultCode := rfl
@[simp] theorem respond_busy (r : ResponseWord) (s : State) : (respond r s).busy = false := rfl
@[simp] theorem respond_orient (r : ResponseWord) (s : State) : (respond r s).orient = s.orient := rfl
@[simp] theorem respond_trace (r : ResponseWord) (s : State) : (respond r s).trace = s.trace := rfl
@[simp] theorem respond_src (r : ResponseWord) (s : State) : (respond r s).src = s.src := rfl
@[simp] theorem respond_offered (r : ResponseWord) (s : State) : (respond r s).offered = s.offered := rfl
@[simp] theorem respond_responses (r : ResponseWord) (s : State) : (respond r s).responses = s.responses ++ [r] := rfl
@[simp] theorem respond_emit (r : ResponseWord) (s : State) : (respond r s).emit = s.emit := rfl
@[simp] theorem respond_frame (r : ResponseWord) (s : State) : (respond r s).frame = s.frame := rfl
@[simp] theorem respond_allocs (r : ResponseWord) (s : State) : (respond r s).allocs = s.allocs := rfl
@[simp] theorem respond_answers (r : ResponseWord) (s : State) : (respond r s).answers = s.answers := rfl
@[simp] theorem respond_draws (r : ResponseWord) (s : State) : (respond r s).draws = s.draws := rfl

/-! ### raiseFault -/
@[simp] theorem raiseFault_cfg (c : FaultCode) (s : State) : (raiseFault c s).cfg = s.cfg := rfl
@[simp] theorem raiseFault_lc (c : FaultCode) (s : State) : (raiseFault c s).lc = s.lc := rfl
@[simp] theorem raiseFault_fb (c : FaultCode) (s : State) : (raiseFault c s).fb = s.fb := rfl
@[simp] theorem raiseFault_fbValid (c : FaultCode) (s : State) : (raiseFault c s).fbValid = s.fbValid := rfl
@[simp] theorem raiseFault_contrast (c : FaultCode) (s : State) : (raiseFault c s).contrast = s.contrast := rfl
@[simp] theorem raiseFault_pwr (c : FaultCode) (s : State) : (raiseFault c s).pwr = s.pwr := rfl
@[simp] theorem raiseFault_seq (c : FaultCode) (s : State) : (raiseFault c s).seq = .idle := rfl
@[simp] theorem raiseFault_faultValid (c : FaultCode) (s : State) : (raiseFault c s).faultValid = true := rfl
@[simp] theorem raiseFault_faultCode (c : FaultCode) (s : State) : (raiseFault c s).faultCode = c := rfl
@[simp] theorem raiseFault_busy (c : FaultCode) (s : State) : (raiseFault c s).busy = false := rfl
@[simp] theorem raiseFault_orient (c : FaultCode) (s : State) : (raiseFault c s).orient = s.orient := rfl
@[simp] theorem raiseFault_trace (c : FaultCode) (s : State) : (raiseFault c s).trace = s.trace := rfl
@[simp] theorem raiseFault_src (c : FaultCode) (s : State) : (raiseFault c s).src = s.src := rfl
@[simp] theorem raiseFault_offered (c : FaultCode) (s : State) : (raiseFault c s).offered = s.offered := rfl
@[simp] theorem raiseFault_responses (c : FaultCode) (s : State) : (raiseFault c s).responses = s.responses ++ [faultWord c] := rfl
@[simp] theorem raiseFault_emit (c : FaultCode) (s : State) : (raiseFault c s).emit = s.emit := rfl
@[simp] theorem raiseFault_frame (c : FaultCode) (s : State) : (raiseFault c s).frame = s.frame := rfl
@[simp] theorem raiseFault_allocs (c : FaultCode) (s : State) : (raiseFault c s).allocs = s.allocs := rfl
@[simp] theorem raiseFault_answers (c : FaultCode) (s : State) : (raiseFault c s).answers = s.answers := rfl
@[simp] theorem raiseFault_draws (c : FaultCode) (s : State) : (raiseFault c s).draws = s.draws := rfl

/-! ### busOffer -/
@[simp] theorem busOffer_cfg (s : State) : (busOffer s).cfg = s.cfg := rfl
@[simp] theorem busOffer_lc (s : State) : (busOffer s).lc = s.lc := rfl
@[simp] theorem busOffer_fb (s : State) : (busOffer s).fb = s.fb := rfl
@[simp] theorem busOffer_fbValid (s : State) : (busOffer s).fbValid = s.fbValid := rfl
@[simp] theorem busOffer_contrast (s : State) : (busOffer s).contrast = s.contrast := rfl
@[simp] theorem busOffer_pwr (s : State) : (busOffer s).pwr = s.pwr := rfl
@[simp] theorem busOffer_seq (s : State) : (busOffer s).seq = s.seq := rfl
@[simp] theorem busOffer_faultValid (s : State) : (busOffer s).faultValid = s.faultValid := rfl
@[simp] theorem busOffer_faultCode (s : State) : (busOffer s).faultCode = s.faultCode := rfl
@[simp] theorem busOffer_busy (s : State) : (busOffer s).busy = s.busy := rfl
@[simp] theorem busOffer_orient (s : State) : (busOffer s).orient = s.orient := rfl
@[simp] theorem busOffer_trace (s : State) :
    (busOffer s).trace = s.trace ++ [⟨s.cfg.busAddr, s.cfg.busChannel, s.frame, .pending⟩] := rfl
@[simp] theorem busOffer_src (s : State) : (busOffer s).src = s.src := rfl
@[simp] theorem busOffer_offered (s : State) : (busOffer s).offered = s.offered := rfl
@[simp] theorem busOffer_responses (s : State) : (busOffer s).responses = s.responses := rfl
@[simp] theorem busOffer_emit (s : State) : (busOffer s).emit = s.emit := rfl
@[simp] theorem busOffer_frame (s : State) : (busOffer s).frame = [] := rfl
@[simp] theorem busOffer_allocs (s : State) : (busOffer s).allocs = s.allocs := rfl
@[simp] theorem busOffer_answers (s : State) : (busOffer s).answers = s.answers := rfl
@[simp] theorem busOffer_draws (s : State) : (busOffer s).draws = s.draws := rfl

/-! ### busAnswer -/
@[simp] theorem busAnswer_cfg (a : Answer) (s : State) : (busAnswer a s).cfg = s.cfg := rfl
@[simp] theorem busAnswer_lc (a : Answer) (s : State) : (busAnswer a s).lc = s.lc := rfl
@[simp] theorem busAnswer_fb (a : Answer) (s : State) : (busAnswer a s).fb = s.fb := rfl
@[simp] theorem busAnswer_fbValid (a : Answer) (s : State) : (busAnswer a s).fbValid = s.fbValid := rfl
@[simp] theorem busAnswer_contrast (a : Answer) (s : State) : (busAnswer a s).contrast = s.contrast := rfl
@[simp] theorem busAnswer_pwr (a : Answer) (s : State) : (busAnswer a s).pwr = s.pwr := rfl
@[simp] theorem busAnswer_seq (a : Answer) (s : State) : (busAnswer a s).seq = s.seq := rfl
@[simp] theorem busAnswer_faultValid (a : Answer) (s : State) : (busAnswer a s).faultValid = s.faultValid := rfl
@[simp] theorem busAnswer_faultCode (a : Answer) (s : State) : (busAnswer a s).faultCode = s.faultCode := rfl
@[simp] theorem busAnswer_busy (a : Answer) (s : State) : (busAnswer a s).busy = s.busy := rfl
@[simp] theorem busAnswer_orient (a : Answer) (s : State) : (busAnswer a s).orient = s.orient := rfl
@[simp] theorem busAnswer_trace (a : Answer) (s : State) : (busAnswer a s).trace = answerLast a s.trace := rfl
@[simp] theorem busAnswer_src (a : Answer) (s : State) : (busAnswer a s).src = s.src := rfl
@[simp] theorem busAnswer_offered (a : Answer) (s : State) : (busAnswer a s).offered = s.offered := rfl
@[simp] theorem busAnswer_responses (a : Answer) (s : State) : (busAnswer a s).responses = s.responses := rfl
@[simp] theorem busAnswer_emit (a : Answer) (s : State) : (busAnswer a s).emit = s.emit := rfl
@[simp] theorem busAnswer_frame (a : Answer) (s : State) : (busAnswer a s).frame = s.frame := rfl
@[simp] theorem busAnswer_allocs (a : Answer) (s : State) : (busAnswer a s).allocs = s.allocs := rfl
@[simp] theorem busAnswer_answers (a : Answer) (s : State) : (busAnswer a s).answers = s.answers := rfl
@[simp] theorem busAnswer_draws (a : Answer) (s : State) : (busAnswer a s).draws = s.draws := rfl

/-! ### openFrame -/
@[simp] theorem openFrame_cfg (b : Byte) (s : State) : (openFrame b s).cfg = s.cfg := rfl
@[simp] theorem openFrame_lc (b : Byte) (s : State) : (openFrame b s).lc = s.lc := rfl
@[simp] theorem openFrame_fb (b : Byte) (s : State) : (openFrame b s).fb = s.fb := rfl
@[simp] theorem openFrame_fbValid (b : Byte) (s : State) : (openFrame b s).fbValid = s.fbValid := rfl
@[simp] theorem openFrame_contrast (b : Byte) (s : State) : (openFrame b s).contrast = s.contrast := rfl
@[simp] theorem openFrame_pwr (b : Byte) (s : State) : (openFrame b s).pwr = s.pwr := rfl
@[simp] theorem openFrame_seq (b : Byte) (s : State) : (openFrame b s).seq = s.seq := rfl
@[simp] theorem openFrame_faultValid (b : Byte) (s : State) : (openFrame b s).faultValid = s.faultValid := rfl
@[simp] theorem openFrame_faultCode (b : Byte) (s : State) : (openFrame b s).faultCode = s.faultCode := rfl
@[simp] theorem openFrame_busy (b : Byte) (s : State) : (openFrame b s).busy = s.busy := rfl
@[simp] theorem openFrame_orient (b : Byte) (s : State) : (openFrame b s).orient = s.orient := rfl
@[simp] theorem openFrame_trace (b : Byte) (s : State) : (openFrame b s).trace = s.trace := rfl
@[simp] theorem openFrame_src (b : Byte) (s : State) : (openFrame b s).src = s.src := rfl
@[simp] theorem openFrame_offered (b : Byte) (s : State) : (openFrame b s).offered = s.offered := rfl
@[simp] theorem openFrame_responses (b : Byte) (s : State) : (openFrame b s).responses = s.responses := rfl
@[simp] theorem openFrame_emit (b : Byte) (s : State) : (openFrame b s).emit = s.emit := rfl
@[simp] theorem openFrame_frame (b : Byte) (s : State) : (openFrame b s).frame = [b] := rfl
@[simp] theorem openFrame_allocs (b : Byte) (s : State) : (openFrame b s).allocs = s.allocs := rfl
@[simp] theorem openFrame_answers (b : Byte) (s : State) : (openFrame b s).answers = s.answers := rfl
@[simp] theorem openFrame_draws (b : Byte) (s : State) : (openFrame b s).draws = s.draws := rfl

/-! ### appendByte -/
@[simp] theorem appendByte_cfg (b : Byte) (s : State) : (appendByte b s).cfg = s.cfg := rfl
@[simp] theorem appendByte_lc (b : Byte) (s : State) : (appendByte b s).lc = s.lc := rfl
@[simp] theorem appendByte_fb (b : Byte) (s : State) : (appendByte b s).fb = s.fb := rfl
@[simp] theorem appendByte_fbValid (b : Byte) (s : State) : (appendByte b s).fbValid = s.fbValid := rfl
@[simp] theorem appendByte_contrast (b : Byte) (s : State) : (appendByte b s).contrast = s.contrast := rfl
@[simp] theorem appendByte_pwr (b : Byte) (s : State) : (appendByte b s).pwr = s.pwr := rfl
@[simp] theorem appendByte_seq (b : Byte) (s : State) : (appendByte b s).seq = s.seq := rfl
@[simp] theorem appendByte_faultValid (b : Byte) (s : State) : (appendByte b s).faultValid = s.faultValid := rfl
@[simp] theorem appendByte_faultCode (b : Byte) (s : State) : (appendByte b s).faultCode = s.faultCode := rfl
@[simp] theorem appendByte_busy (b : Byte) (s : State) : (appendByte b s).busy = s.busy := rfl
@[simp] theorem appendByte_orient (b : Byte) (s : State) : (appendByte b s).orient = s.orient := rfl
@[simp] theorem appendByte_trace (b : Byte) (s : State) : (appendByte b s).trace = s.trace := rfl
@[simp] theorem appendByte_src (b : Byte) (s : State) : (appendByte b s).src = s.src := rfl
@[simp] theorem appendByte_offered (b : Byte) (s : State) : (appendByte b s).offered = s.offered := rfl
@[simp] theorem appendByte_responses (b : Byte) (s : State) : (appendByte b s).responses = s.responses := rfl
@[simp] theorem appendByte_emit (b : Byte) (s : State) : (appendByte b s).emit = s.emit := rfl
@[simp] theorem appendByte_frame (b : Byte) (s : State) : (appendByte b s).frame = s.frame ++ [b] := rfl
@[simp] theorem appendByte_allocs (b : Byte) (s : State) : (appendByte b s).allocs = s.allocs := rfl
@[simp] theorem appendByte_answers (b : Byte) (s : State) : (appendByte b s).answers = s.answers := rfl
@[simp] theorem appendByte_draws (b : Byte) (s : State) : (appendByte b s).draws = s.draws := rfl

/-! ### takeAlloc -/
@[simp] theorem takeAlloc_cfg (s : State) : (takeAlloc s).cfg = s.cfg := by
  unfold takeAlloc; split <;> rfl
@[simp] theorem takeAlloc_lc (s : State) : (takeAlloc s).lc = s.lc := by
  unfold takeAlloc; split <;> rfl
@[simp] theorem takeAlloc_fb (s : State) : (takeAlloc s).fb = s.fb := by
  unfold takeAlloc; split <;> rfl
@[simp] theorem takeAlloc_fbValid (s : State) : (takeAlloc s).fbValid = s.fbValid := by
  unfold takeAlloc; split <;> rfl
@[simp] theorem takeAlloc_contrast (s : State) : (takeAlloc s).contrast = s.contrast := by
  unfold takeAlloc; split <;> rfl
@[simp] theorem takeAlloc_pwr (s : State) : (takeAlloc s).pwr = s.pwr := by
  unfold takeAlloc; split <;> rfl
@[simp] theorem takeAlloc_seq (s : State) : (takeAlloc s).seq = s.seq := by
  unfold takeAlloc; split <;> rfl
@[simp] theorem takeAlloc_faultValid (s : State) : (takeAlloc s).faultValid = s.faultValid := by
  unfold takeAlloc; split <;> rfl
@[simp] theorem takeAlloc_faultCode (s : State) : (takeAlloc s).faultCode = s.faultCode := by
  unfold takeAlloc; split <;> rfl
@[simp] theorem takeAlloc_busy (s : State) : (takeAlloc s).busy = s.busy := by
  unfold takeAlloc; split <;> rfl
@[simp] theorem takeAlloc_orient (s : State) : (takeAlloc s).orient = s.orient := by
  unfold takeAlloc; split <;> rfl
@[simp] theorem takeAlloc_trace (s : State) : (takeAlloc s).trace = s.trace := by
  unfold takeAlloc; split <;> rfl
@[simp] theorem takeAlloc_src (s : State) : (takeAlloc s).src = s.src := by
  unfold takeAlloc; split <;> rfl
@[simp] theorem takeAlloc_offered (s : State) : (takeAlloc s).offered = s.offered := by
  unfold takeAlloc; split <;> rfl
@[simp] theorem takeAlloc_responses (s : State) : (takeAlloc s).responses = s.responses := by
  unfold takeAlloc; split <;> rfl
@[simp] theorem takeAlloc_emit (s : State) : (takeAlloc s).emit = s.emit := by
  unfold takeAlloc; split <;> rfl
@[simp] theorem takeAlloc_frame (s : State) : (takeAlloc s).frame = s.frame := by
  unfold takeAlloc; split <;> rfl
@[simp] theorem takeAlloc_answers (s : State) : (takeAlloc s).answers = s.answers := by
  unfold takeAlloc; split <;> rfl

/-! ### takeAnswer -/
@[simp] theorem takeAnswer_cfg (s : State) : (takeAnswer s).cfg = s.cfg := by
  unfold takeAnswer; split <;> rfl
@[simp] theorem takeAnswer_lc (s : State) : (takeAnswer s).lc = s.lc := by
  unfold takeAnswer; split <;> rfl
@[simp] theorem takeAnswer_fb (s : State) : (takeAnswer s).fb = s.fb := by
  unfold takeAnswer; split <;> rfl
@[simp] theorem takeAnswer_fbValid (s : State) : (takeAnswer s).fbValid = s.fbValid := by
  unfold takeAnswer; split <;> rfl
@[simp] theorem takeAnswer_contrast (s : State) : (takeAnswer s).contrast = s.contrast := by
  unfold takeAnswer; split <;> rfl
@[simp] theorem takeAnswer_pwr (s : State) : (takeAnswer s).pwr = s.pwr := by
  unfold takeAnswer; split <;> rfl
@[simp] theorem takeAnswer_seq (s : State) : (takeAnswer s).seq = s.seq := by
  unfold takeAnswer; split <;> rfl
@[simp] theorem takeAnswer_faultValid (s : State) : (takeAnswer s).faultValid = s.faultValid := by
  unfold takeAnswer; split <;> rfl
@[simp] theorem takeAnswer_faultCode (s : State) : (takeAnswer s).faultCode = s.faultCode := by
  unfold takeAnswer; split <;> rfl
@[simp] theorem takeAnswer_busy (s : State) : (takeAnswer s).busy = s.busy := by
  unfold takeAnswer; split <;> rfl
@[simp] theorem takeAnswer_orient (s : State) : (takeAnswer s).orient = s.orient := by
  unfold takeAnswer; split <;> rfl
@[simp] theorem takeAnswer_trace (s : State) : (takeAnswer s).trace = s.trace := by
  unfold takeAnswer; split <;> rfl
@[simp] theorem takeAnswer_src (s : State) : (takeAnswer s).src = s.src := by
  unfold takeAnswer; split <;> rfl
@[simp] theorem takeAnswer_offered (s : State) : (takeAnswer s).offered = s.offered := by
  unfold takeAnswer; split <;> rfl
@[simp] theorem takeAnswer_responses (s : State) : (takeAnswer s).responses = s.responses := by
  unfold takeAnswer; split <;> rfl
@[simp] theorem takeAnswer_emit (s : State) : (takeAnswer s).emit = s.emit := by
  unfold takeAnswer; split <;> rfl
@[simp] theorem takeAnswer_frame (s : State) : (takeAnswer s).frame = s.frame := by
  unfold takeAnswer; split <;> rfl
@[simp] theorem takeAnswer_allocs (s : State) : (takeAnswer s).allocs = s.allocs := by
  unfold takeAnswer; split <;> rfl

/-- A known allocation result is taken from the list, and nothing is drawn. -/
theorem takeAlloc_cons {s : State} {b : Bool} {r : List Bool} (h : s.allocs = b :: r) :
    allocResult s = b ∧ takeAlloc s = { s with allocs := r } := by
  simp [allocResult, takeAlloc, h]

/-- A known answer is taken from the list, and nothing is drawn. -/
theorem takeAnswer_cons {s : State} {a : Answer} {r : List Answer} (h : s.answers = a :: r) :
    transportSays s = a ∧ takeAnswer s = { s with answers := r } := by
  simp [transportSays, takeAnswer, h]

/-- Whatever the transport says, asking it changes nothing but the model's own input fields. -/
theorem takeAnswer_eq (s : State) :
    takeAnswer s = { s with answers := (takeAnswer s).answers, draws := (takeAnswer s).draws } := by
  unfold takeAnswer; split <;> rfl

/-- Whatever the allocation gives, taking it changes nothing but the model's own input fields. -/
theorem takeAlloc_eq (s : State) :
    takeAlloc s = { s with allocs := (takeAlloc s).allocs, draws := (takeAlloc s).draws } := by
  unfold takeAlloc; split <;> rfl

end Sys2Proof.Machine
end

