-- ==== Sys2Proof/Laws/Ops.lean ====
section
/-! SUPPORT. Laws/Ops.lean: the trace's last entry, and the responses' fields. -/

namespace Sys2Proof.Machine

/-- Recording an answer changes the last entry's answer and nothing else (R41). -/
@[simp] theorem answerLast_append (a : Answer) (l : List BusWrite) (e : BusWrite) :
    answerLast a (l ++ [e]) = l ++ [{ e with answer := a }] := by
  induction l with
  | nil => rfl
  | cons d r ih =>
    cases r with
    | nil => rfl
    | cons f r => simpa [answerLast] using ih

theorem answerLast_eq (a : Answer) (l : List BusWrite) :
    answerLast a l = l ∧ l = [] ∨
      ∃ i e, l = i ++ [e] ∧ answerLast a l = i ++ [{ e with answer := a }] := by
  rcases List.eq_nil_or_concat l with rfl | ⟨i, e, rfl⟩
  · exact .inl ⟨rfl, rfl⟩
  · exact .inr ⟨i, e, by simp, by simp⟩

/-- The block waits exactly when the last frame offered has no answer (R42). -/
theorem awaiting_iff (s : State) :
    awaiting s = true ↔ ∃ i e, s.trace = i ++ [e] ∧ e.answer = .pending := by
  unfold awaiting
  rcases List.eq_nil_or_concat s.trace with h | ⟨i, e, h⟩
  · simp [h]
  · rw [h]
    simp only [List.concat_eq_append, List.getLast?_append, List.getLast?_singleton,
      Option.some_or, decide_eq_true_eq]
    constructor
    · exact fun he => ⟨i, e, rfl, he⟩
    · rintro ⟨i', e', h', he⟩
      have := (List.append_inj' h' rfl).2
      simp only [List.cons.injEq, and_true] at this
      rw [this]; exact he

theorem awaiting_of_trace {s : State} {i : List BusWrite} {e : BusWrite} (h : s.trace = i ++ [e]) :
    awaiting s = decide (e.answer = .pending) := by
  unfold awaiting
  simp [h]

/-- Only the trace decides whether the block waits. -/
theorem awaiting_congr {s t : State} (h : t.trace = s.trace) : awaiting t = awaiting s := by
  unfold awaiting; rw [h]

/-- The fields of a response (R55). -/
theorem response_fields (st : BitVec 1) (code : BitVec 4) (v : BitVec 1) :
    responseStatus (responseWord st code v) = st ∧ responseCode (responseWord st code v) = code ∧
      responseValue (responseWord st code v) = v := by
  revert st code v; decide

end Sys2Proof.Machine
end

