-- ==== Sys2Proof/Laws/PerInstr.lean ====
section
/-! SUPPORT. Laws/PerInstr.lean: the statement made per instruction: its encoding has the bits its row of
spec/opcode_table.json fixes, whatever its operands. -/

namespace Sys2Proof.Laws.TableRow

/-- The encoding of an instruction fits its row of the table. -/
def Statement (i : Instr) : Prop := (encode i).fits (tableRow i)

/-- A packed request word keeps its operation code and its reserved zeros under the table's mask. -/
theorem pack_mask (src : BitVec 32) (h w y x : BitVec 16) (pm : BitVec 1) (color : BitVec 2) (op : BitVec 4) :
    (packRequest src h w y x pm color op).toNat &&& requestMask = op.toNat := by
  have e : packRequest src h w y x pm color op &&& BitVec.ofNat 128 requestMask = op.setWidth 128 := by
    apply BitVec.eq_of_getLsbD_eq
    intro i hi
    rw [BitVec.getLsbD_and, getLsbD_pack, BitVec.getLsbD_setWidth]
    have hm : (BitVec.ofNat 128 requestMask).getLsbD i = decide (i < 4 ∨ i = 7 ∨ 104 ≤ i) := by
      revert i; decide
    rw [hm]
    by_cases h4 : i < 4
    · simp [h4]; omega
    · rw [if_neg h4, BitVec.getLsbD_of_ge op i (by omega)]
      by_cases h7 : i = 7
      · simp [h7]
      · by_cases h104 : 104 ≤ i
        · split_ifs <;> first | omega | simp
        · simp [h4, h7, h104]
  have := congrArg BitVec.toNat e
  rw [BitVec.toNat_and] at this
  rw [BitVec.toNat_ofNat, Nat.mod_eq_of_lt (by decide)] at this
  rw [this, BitVec.toNat_setWidth, Nat.mod_eq_of_lt (by have := op.isLt; omega)]

/-- A request with operation code `n` fits a row that matches `n`. -/
theorem request_fits (src : BitVec 32) (h w y x : BitVec 16) (pm : BitVec 1) (color : BitVec 2) (op : BitVec 4) :
    (Encoding.request (packRequest src h w y x pm color op)).fits ⟨128, op.toNat, requestMask⟩ :=
  ⟨rfl, pack_mask src h w y x pm color op⟩

theorem begin (pm : PowerMode) : Statement (.begin pm) := request_fits _ _ _ _ _ _ _ 1
theorem clear : Statement .clear := request_fits _ _ _ _ _ _ _ 2
theorem fill : Statement .fill := request_fits _ _ _ _ _ _ _ 3
theorem writePixel (x y : BitVec 16) (color : ColorCode) : Statement (.writePixel x y color) :=
  request_fits _ _ _ _ _ _ _ 4
theorem drawBitmap (x y w h : BitVec 16) (src : BitVec 32) (color : ColorCode) :
    Statement (.drawBitmap x y w h src color) := request_fits _ _ _ _ _ _ _ 5
theorem flush : Statement .flush := request_fits _ _ _ _ _ _ _ 6
theorem readPixel (x y : BitVec 16) : Statement (.readPixel x y) := request_fits _ _ _ _ _ _ _ 7
theorem tagCmd : Statement .tagCmd := ⟨rfl, rfl⟩
theorem tagData : Statement .tagData := ⟨rfl, rfl⟩
theorem pageSel (p : BitVec 4) : Statement (.pageSel p) := ⟨rfl, by revert p; decide⟩
theorem colLowNormal : Statement .colLowNormal := ⟨rfl, rfl⟩
theorem colLowVariant : Statement .colLowVariant := ⟨rfl, rfl⟩
theorem colHigh : Statement .colHigh := ⟨rfl, rfl⟩
theorem multiplexOperand (hMinus1 : BitVec 7) : Statement (.multiplexOperand hMinus1) :=
  ⟨rfl, by revert hMinus1; decide⟩
theorem displayOffsetValue : Statement .displayOffsetValue := ⟨rfl, rfl⟩
theorem cpSelectExternal : Statement .cpSelectExternal := ⟨rfl, rfl⟩
theorem contrast128x64Internal : Statement .contrast128x64Internal := ⟨rfl, rfl⟩
theorem contrast128x64External : Statement .contrast128x64External := ⟨rfl, rfl⟩

end Sys2Proof.Laws.TableRow
end

