-- ==== Sys2Proof/Laws/Requests.lean ====
section
/-! SUPPORT. Laws/Requests.lean: the decoder of a request word, in the claims' words (spec/30_encoding.md R50 to R54,
R62). -/

namespace Sys2Proof.Machine

/-- A field of a request word is the bits from its start up (R50). -/
theorem extract_field (q : RequestWord) (start w : Nat) : q.extractLsb' start w = requestField q start w := by
  simp [requestField, BitVec.extractLsb', Nat.shiftRight_eq_div_pow]

/-- The operation code, as bits and as a number (R50, R52). -/
theorem qOp_eq_iff (q : RequestWord) {n : Nat} (hn : n < 16) : qOp q = BitVec.ofNat 4 n ↔ requestOp q = n := by
  unfold qOp requestOp
  rw [extract_field, requestField, ← BitVec.toNat_inj]
  simp
  omega

/-- The reserved bits (R62 (b)). -/
theorem reserved_iff (q : RequestWord) :
    (qReservedLo q ≠ 0#1 ∨ qReservedHi q ≠ 0#24) ↔ ¬ reservedClear q := by
  unfold qReservedLo qReservedHi reservedClear
  rw [extract_field, extract_field, requestField, requestField, Ne, Ne, ← BitVec.toNat_inj,
    ← BitVec.toNat_inj]
  have := q.isLt
  simp
  omega

/-- A word with a reserved bit set has no instruction (R62 (b)). -/
theorem decodeRequest_reserved {q : RequestWord} (h : ¬ reservedClear q) :
    decodeRequest q = .error .reservedBits := by
  unfold decodeRequest
  rw [if_pos ((reserved_iff q).mpr h)]

/-- The instruction of a word with the reserved bits 0, by its operation code (R52). -/
theorem decodeRequest_clear {q : RequestWord} (h : reservedClear q) : decodeRequest q =
    if requestOp q = 1 then .ok (.begin (powerModeOfCode (requestField q 6 1)))
    else if requestOp q = 2 then .ok .clear
    else if requestOp q = 3 then .ok .fill
    else if requestOp q = 4 then .ok
      (.writePixel (requestField q 8 16) (requestField q 24 16) (colorOfCode (requestField q 4 2)))
    else if requestOp q = 5 then .ok
      (.drawBitmap (requestField q 8 16) (requestField q 24 16) (requestField q 40 16)
        (requestField q 56 16) (requestField q 72 32) (colorOfCode (requestField q 4 2)))
    else if requestOp q = 6 then .ok .flush
    else if requestOp q = 7 then .ok (.readPixel (requestField q 8 16) (requestField q 24 16))
    else .error .reservedOp := by
  unfold decodeRequest
  rw [if_neg (fun hr => (reserved_iff q).mp hr h)]
  simp only [qOp_eq_iff q (show 1 < 16 by decide), qOp_eq_iff q (show 2 < 16 by decide),
    qOp_eq_iff q (show 3 < 16 by decide), qOp_eq_iff q (show 4 < 16 by decide),
    qOp_eq_iff q (show 5 < 16 by decide), qOp_eq_iff q (show 6 < 16 by decide),
    qOp_eq_iff q (show 7 < 16 by decide), qPm, qX, qY, qColor, qW, qH, qSrc, extract_field]

end Sys2Proof.Machine
end

