-- ==== Sys2Proof/Laws/Step.lean ====
section
/-! SUPPORT. Laws/Step.lean: everything a step can do, said once: one lemma for the requests, one for the wire
bytes, one for the sequencer's steps, one for the step as a whole. -/

namespace Sys2Proof.Machine

/-! ### The framer -/

/-- A wire byte put in the frame: a tag opens the frame, any other byte is copied after it. -/
def emitByte (b : WireByte) (s : State) : State :=
  if b.slot = .tag then openFrame b.byte s else appendByte b.byte s

/-- The meaning of a wire byte the table lists is to put that byte in the frame. -/
theorem exec_wire {b : WireByte} {i : Instr} (h : decodeWire b = .ok i) (s : State) :
    exec i s = .next (emitByte b s) := by
  obtain ⟨slot, v⟩ := b
  cases slot <;> simp only [decodeWire] at h
  case tag =>
    split at h
    · injection h with h; subst h; subst_vars; rfl
    · split at h
      · injection h with h; subst h; subst_vars; rfl
      · cases h
  case pageSelect =>
    split at h
    · rename_i hv
      injection h with h; subst h
      have : pageSelByte (v.extractLsb' 0 4) = v := by revert v; decide
      simp [exec, execPageSel, emitByte, this]
    · cases h
  case multiplex =>
    split at h
    · rename_i hv
      injection h with h; subst h
      have : (v.extractLsb' 0 7).setWidth 8 = v := by revert v; decide
      simp [exec, execMultiplexOperand, emitByte, this]
    · cases h
  case colLow =>
    split at h
    · injection h with h; subst h; subst_vars; rfl
    · split at h
      · injection h with h; subst h; subst_vars; rfl
      · cases h
  case contrast128x64 =>
    split at h
    · injection h with h; subst h; subst_vars; rfl
    · split at h
      · injection h with h; subst h; subst_vars; rfl
      · cases h
  case colHigh =>
    split at h
    · injection h with h; subst h; subst_vars; rfl
    · cases h
  case displayOffset =>
    split at h
    · injection h with h; subst h; subst_vars; rfl
    · cases h
  case chargePumpExternal =>
    split at h
    · injection h with h; subst h; subst_vars; rfl
    · cases h
  case command => cases h
  case pixel => cases h

/-- A byte of a frame, at a place and with a value the framer uses: a tag is one of the two. -/
def LegalByte (b : WireByte) : Prop := b.slot = .tag → b.byte = 0x00#8 ∨ b.byte = 0x40#8

/-- A step with a byte to emit puts it in the frame. -/
theorem step_emit {s : State} {b : WireByte} {rest : List WireByte} (hc : s.cfg.wellFormed = true)
    (hf : s.faultValid = false) (he : s.emit = b :: rest) (hb : LegalByte b) :
    step s = .next (emitByte b { s with emit := rest }) := by
  unfold step fetch
  simp only [hc, hf, he, fetchByte, Bool.true_eq_false, if_false, Bool.false_eq_true]
  cases h : decodeWire b with
  | ok i => exact exec_wire h _
  | error e =>
    have : b.slot ≠ .tag := by
      intro hs
      obtain ⟨slot, v⟩ := b
      simp only at hs
      subst hs
      rcases hb rfl with h' | h' <;> simp only at h' <;> subst h' <;> cases h
    simp [emitByte, this]

/-! ### Requests -/

/-- Everything a request can do. -/
theorem request_cases {i : Instr} {q : RequestWord} (hi : encode i = .request q) {s t : State}
    (h : exec i s = .next t) :
    (∃ c, t = raiseFault c s ∧ (c = .illegalColor ∨ c = .notReady ∧ s.lc ≠ .displayOn ∨
        c = .beginState ∧ s.lc ≠ .uninitialized)) ∨
    (s.lc = .displayOn ∧ ∃ fb v, t = respond (okWord v) { s with fb := fb } ∧
      (Memory.wf s.fb = true → Memory.wf fb = true) ∧
      (Memory.below s.fb (nFb s.cfg) = true → Memory.below fb (nFb s.cfg) = true)) ∨
    (s.lc = .displayOn ∧ ∃ fb, t = raiseFault .srcRange { s with fb := fb } ∧
      (Memory.wf s.fb = true → Memory.wf fb = true) ∧
      (Memory.below s.fb (nFb s.cfg) = true → Memory.below fb (nFb s.cfg) = true)) ∨
    (s.lc = .displayOn ∧ i = .flush ∧ t = { s with seq := .running .flush 0 }) ∨
    (s.lc = .uninitialized ∧ ∃ pm, i = .begin pm ∧ t = beginAllocate { s with pwr := pm }) := by
  have hready : ∀ u, requireReady s u = .next t →
      (t = raiseFault .notReady s ∧ s.lc ≠ .displayOn) ∨ (s.lc = .displayOn ∧ t = u) := by
    intro u hu
    unfold requireReady at hu
    split at hu
    · injection hu with hu; exact .inr ⟨‹_›, hu.symm⟩
    · injection hu with hu; exact .inl ⟨hu.symm, ‹_›⟩
  cases i with
  | begin pm =>
    simp only [exec, execBegin] at h
    split at h
    · injection h with h
      exact .inr (.inr (.inr (.inr ⟨‹_›, pm, rfl, h.symm⟩)))
    · injection h with h
      exact .inl ⟨_, h.symm, .inr (.inr ⟨rfl, ‹_›⟩)⟩
  | clear =>
    rcases hready _ h with ⟨rfl, hl⟩ | ⟨hl, rfl⟩
    · exact .inl ⟨_, rfl, .inr (.inl ⟨rfl, hl⟩)⟩
    · exact .inr (.inl ⟨hl, _, _, rfl, fun h => Memory.wf_fill h _ _, fun h => Memory.below_fill h _⟩)
  | fill =>
    rcases hready _ h with ⟨rfl, hl⟩ | ⟨hl, rfl⟩
    · exact .inl ⟨_, rfl, .inr (.inl ⟨rfl, hl⟩)⟩
    · exact .inr (.inl ⟨hl, _, _, rfl, fun h => Memory.wf_fill h _ _, fun h => Memory.below_fill h _⟩)
  | writePixel x y c =>
    cases c with
    | illegal =>
      simp only [exec, execWritePixel] at h
      injection h with h
      exact .inl ⟨_, h.symm, .inl rfl⟩
    | legal c =>
      rcases hready _ h with ⟨rfl, hl⟩ | ⟨hl, rfl⟩
      · exact .inl ⟨_, rfl, .inr (.inl ⟨rfl, hl⟩)⟩
      · exact .inr (.inl ⟨hl, _, _, rfl, fun h => wf_writePixelCore h _ _ _ _ _,
          fun h => below_writePixelCore h _ _ _ _⟩)
  | drawBitmap x y w hh src c =>
    cases c with
    | illegal =>
      simp only [exec, execDrawBitmap] at h
      injection h with h
      exact .inl ⟨_, h.symm, .inl rfl⟩
    | legal c =>
      have hwf := wf_blit s (coord x) (coord y) (srcAddress src) (coord w) (coord hh) c
      have hbl := below_blit s (coord x) (coord y) (srcAddress src) (coord w) (coord hh) c
      rcases hready _ h with ⟨rfl, hl⟩ | ⟨hl, ht⟩
      · exact .inl ⟨_, rfl, .inr (.inl ⟨rfl, hl⟩)⟩
      · cases hb : blit s (coord x) (coord y) (srcAddress src) (coord w) (coord hh) c with
        | done fb =>
          rw [hb] at ht hwf hbl
          exact .inr (.inl ⟨hl, fb, _, ht, hwf, hbl⟩)
        | srcRange fb =>
          rw [hb] at ht hwf hbl
          exact .inr (.inr (.inl ⟨hl, fb, ht, hwf, hbl⟩))
  | flush =>
    rcases hready _ h with ⟨rfl, hl⟩ | ⟨hl, rfl⟩
    · exact .inl ⟨_, rfl, .inr (.inl ⟨rfl, hl⟩)⟩
    · exact .inr (.inr (.inr (.inl ⟨hl, rfl, rfl⟩)))
  | readPixel x y =>
    rcases hready _ h with ⟨rfl, hl⟩ | ⟨hl, rfl⟩
    · exact .inl ⟨_, rfl, .inr (.inl ⟨rfl, hl⟩)⟩
    · exact .inr (.inl ⟨hl, s.fb, _, rfl, id, id⟩)
  | tagCmd => cases hi
  | tagData => cases hi
  | pageSel p => cases hi
  | colLowNormal => cases hi
  | colLowVariant => cases hi
  | colHigh => cases hi
  | multiplexOperand v => cases hi
  | displayOffsetValue => cases hi
  | cpSelectExternal => cases hi
  | contrast128x64Internal => cases hi
  | contrast128x64External => cases hi

/-! ### The sequencer -/

/-- A frame the block sends: a tag, then at least one byte, and no second tag. -/
def GoodFrame (f : List WireByte) : Prop :=
  ∃ v r, f = ⟨.tag, v⟩ :: r ∧ (v = 0x00#8 ∨ v = 0x40#8) ∧ r ≠ [] ∧ ∀ b ∈ r, b.slot ≠ .tag

theorem goodFrame_cmdFrame {r : List WireByte} (h : r ≠ []) (ht : ∀ b ∈ r, b.slot ≠ .tag) :
    GoodFrame (cmdFrame r) :=
  ⟨_, r, rfl, .inl rfl, h, ht⟩

theorem goodFrame_flushFrame {c : Config} (hw : 1 ≤ c.width) (fb : Memory) (m : Nat) :
    GoodFrame (flushFrame c fb m) := by
  unfold flushFrame
  split
  · exact goodFrame_cmdFrame (by simp) (by simp)
  · refine ⟨_, _, rfl, .inr rfl, ?_, by simp⟩
    intro h
    have := congrArg List.length h
    simp [pageBytes] at this
    omega

/-- Everything the completion of a step can do (R28, R89). -/
theorem advance_eq (op : SeqOp) (k : Nat) (s : State) :
    (k + 1 = stepCount s.cfg op ∧ op = .begin ∧
      advance op k s = respond (okWord true) { s with lc := .displayOn, seq := .idle }) ∨
    (k + 1 = stepCount s.cfg op ∧ op = .flush ∧
      advance op k s = respond (okWord false) { s with seq := .idle }) ∨
    (k + 1 ≠ stepCount s.cfg op ∧ op = .begin ∧ k + 1 = flushBase s.cfg ∧
      advance op k s = { s with lc := .handshakeSent, seq := .running op (k + 1) }) ∨
    (k + 1 ≠ stepCount s.cfg op ∧ ¬ (op = .begin ∧ k + 1 = flushBase s.cfg) ∧
      advance op k s = { s with seq := .running op (k + 1) }) := by
  unfold advance
  by_cases h1 : op = .begin ∧ k + 1 = flushBase s.cfg <;> by_cases h2 : k + 1 = stepCount s.cfg op
  · refine .inl ⟨h2, h1.1, ?_⟩
    simp only [if_pos h1, if_pos h2]
    rw [h1.1]; rfl
  · refine .inr (.inr (.inl ⟨h2, h1.1, h1.2, ?_⟩))
    simp only [if_pos h1, if_neg h2]
  · simp only [if_neg h1, if_pos h2]
    cases op with
    | begin => exact .inl ⟨h2, rfl, rfl⟩
    | flush => exact .inr (.inl ⟨h2, rfl, rfl⟩)
  · refine .inr (.inr (.inr ⟨h2, h1, ?_⟩))
    simp only [if_neg h1, if_neg h2]

/-- Everything a `Send` can do (R82). -/
theorem sendStep_cases (op : SeqOp) (k : Nat) (f : List WireByte) (s : State) :
    (awaiting s = true ∧ transportSays s = .pending ∧ sendStep op k f s = takeAnswer s) ∨
    (awaiting s = true ∧ transportSays s = .ok ∧
      sendStep op k f s = advance op k (busAnswer .ok (takeAnswer s))) ∨
    (awaiting s = true ∧ transportSays s = .fail ∧
      sendStep op k f s = raiseFault .bus (busAnswer .fail (takeAnswer s))) ∨
    (awaiting s = false ∧ s.frame = [] ∧ sendStep op k f s = { s with emit := f }) ∨
    (awaiting s = false ∧ s.frame ≠ [] ∧ sendStep op k f s = busOffer s) := by
  unfold sendStep pollTransport
  cases ha : awaiting s with
  | true => cases ht : transportSays s <;> simp
  | false => by_cases hf : s.frame = [] <;> simp [hf]

/-- The step list of BEGIN (R89) and FLUSH (R95): which step is which. -/
theorem stepKind_cases (c : Config) (op : SeqOp) (k : Nat) :
    (stepKind c op k = .allocate ∧ op = .begin ∧ k = 0) ∨
    (stepKind c op k = .clear ∧ op = .begin ∧ k = 1) ∨
    (∃ b, stepKind c op k = .splash b ∧ b ∈ c.splash ∧ op = .begin ∧ 2 ≤ k ∧ k < 2 + c.splash.length ∧
      c.splash[k - 2]? = some b) ∨
    (stepKind c op k = .contrast ∧ op = .begin ∧ k = 2 + c.splash.length) ∨
    (stepKind c op k = .initFrame (k - initBase c) ∧ op = .begin ∧ initBase c ≤ k ∧ k < flushBase c) ∨
    (stepKind c op k = .flushFrame (k - flushBase c) ∧ op = .begin ∧ flushBase c ≤ k ∧
      k < stepCount c .begin) ∨
    (stepKind c op k = .flushFrame k ∧ op = .flush ∧ k < stepCount c .flush) ∨
    (stepKind c op k = .off ∧ stepCount c op ≤ k) := by
  cases op with
  | flush =>
    by_cases h : k < 2 * pages c <;> simp [stepKind, stepCount, h]
    omega
  | begin =>
    unfold stepKind
    by_cases h0 : k = 0
    · simp [h0]
    by_cases h1 : k = 1
    · simp [h1]
    by_cases h2 : k < 2 + c.splash.length
    · have hlt : k - 2 < c.splash.length := by omega
      have hs : c.splash[k - 2]? = some c.splash[k - 2] := by simp [hlt]
      refine .inr (.inr (.inl ⟨c.splash[k - 2], ?_, List.getElem_mem hlt, rfl, by omega, h2, hs⟩))
      simp [h0, h1, h2, hs]
    by_cases h3 : k = 2 + c.splash.length
    · exact .inr (.inr (.inr (.inl ⟨by rw [if_neg h0, if_neg h1, if_neg h2, if_pos h3], rfl, h3⟩)))
    by_cases h4 : k < flushBase c
    · refine .inr (.inr (.inr (.inr (.inl ⟨by simp [h0, h1, h2, h3, h4], rfl, ?_, h4⟩))))
      unfold initBase; omega
    by_cases h5 : k < stepCount c .begin
    · exact .inr (.inr (.inr (.inr (.inr (.inl
        ⟨by simp [h0, h1, h2, h3, h4, h5], rfl, by omega, h5⟩)))))
    · exact .inr (.inr (.inr (.inr (.inr (.inr (.inr
        ⟨by simp [h0, h1, h2, h3, h4, h5], by omega⟩))))))

/-- Which steps send init frames (R89). -/
theorem stepKind_initFrame {c : Config} {op : SeqOp} {k j : Nat} (h : stepKind c op k = .initFrame j) :
    op = .begin ∧ initBase c ≤ k ∧ k < flushBase c ∧ j = k - initBase c := by
  rcases stepKind_cases c op k with ⟨e, _⟩ | ⟨e, _⟩ | ⟨b, e, _⟩ | ⟨e, _⟩ | ⟨e, ho, h1, h2⟩ | ⟨e, _⟩ |
    ⟨e, _⟩ | ⟨e, _⟩ <;> rw [e] at h <;> simp only [StepKind.initFrame.injEq, reduceCtorEq] at h
  exact ⟨ho, h1, h2, h.symm⟩

/-- The init frames are good frames (R81), one per piece of INIT_FRAMING (R88). -/
theorem cutStream_pieces (stream : List WireByte) (l : List Nat) (hpos : ∀ n ∈ l, 0 < n)
    (hsum : l.sum ≤ stream.length) :
    (cutStream stream l).length = l.length ∧
      ∀ p ∈ cutStream stream l, p ≠ [] ∧ ∀ b ∈ p, b ∈ stream := by
  induction l generalizing stream with
  | nil => simp [cutStream]
  | cons n r ih =>
    have hn : 0 < n := hpos n (by simp)
    simp only [List.sum_cons] at hsum
    obtain ⟨hl, hp⟩ := ih (stream.drop n) (fun m hm => hpos m (by simp [hm])) (by simp; omega)
    refine ⟨by simp [cutStream, hl], ?_⟩
    intro p hmem
    rcases List.mem_cons.mp hmem with rfl | hmem
    · refine ⟨?_, fun b hb => List.mem_of_mem_take hb⟩
      intro h
      have := congrArg List.length h
      rw [List.length_take, List.length_nil] at this
      omega
    · exact ⟨(hp p hmem).1, fun b hb => List.mem_of_mem_drop ((hp p hmem).2 b hb)⟩

theorem initStream_length (c : Config) (g : GeometryEntry) (pwr : PowerMode) (contrast : Byte) :
    (initStream c g pwr contrast).length = initStreamLength := rfl

theorem initStream_no_tag (c : Config) (g : GeometryEntry) (pwr : PowerMode) (contrast : Byte) :
    ∀ b ∈ initStream c g pwr contrast, b.slot ≠ .tag := by
  intro b hb
  have hc : contrastSlot c ≠ .tag := by unfold contrastSlot; split <;> decide
  have hp : cpSlot pwr ≠ .tag := by cases pwr <;> decide
  simp only [initStream, List.mem_append, List.mem_cons, List.not_mem_nil, or_false] at hb
  rcases hb with (((((h | h) | h) | h) | h) | h) | h
  all_goals (try rcases h with h | h | h | h | h | h) <;> (try subst h) <;>
    first | exact hc | exact hp | simp [commandByte]

/-- What R12 (a) and (f) give. -/
theorem wellFormed_facts {c : Config} (h : c.wellFormed = true) :
    1 ≤ c.width ∧ c.width ≤ 32767 ∧ 1 ≤ c.height ∧ c.height ≤ 128 ∧
      (∀ n ∈ c.initFraming, 0 < n) ∧ c.initFraming.sum = initStreamLength ∧
      (∀ b ∈ c.splash, b.inside c.srcSize = true) ∧ ∃ g, geometry c = some g := by
  simp only [Config.wellFormed, Bool.and_eq_true] at h
  obtain ⟨⟨⟨⟨⟨⟨hb, hg⟩, _⟩, _⟩, _⟩, hs⟩, hf⟩ := h
  simp only [Config.boundsOk, Bool.and_eq_true, decide_eq_true_eq] at hb
  simp only [Config.framingOk, Bool.and_eq_true, decide_eq_true_eq, List.all_eq_true] at hf
  simp only [Config.splashOk, List.all_eq_true] at hs
  refine ⟨hb.1.1.1, hb.1.1.2, hb.1.2, hb.2, hf.1, hf.2, hs, ?_⟩
  unfold Config.geometryOk at hg
  rw [List.any_eq_true] at hg
  obtain ⟨e, he, hk⟩ := hg
  cases hfind : geometry c with
  | some g => exact ⟨g, rfl⟩
  | none => exact absurd hk (by
      have := List.find?_eq_none.mp hfind e he
      exact this)

theorem initFrames_facts {c : Config} (h : c.wellFormed = true) (g : GeometryEntry) (pwr : PowerMode)
    (contrast : Byte) :
    (initFrames c g pwr contrast).length = c.initFraming.length ∧
      ∀ f ∈ initFrames c g pwr contrast, GoodFrame f := by
  obtain ⟨_, _, _, _, hpos, hsum, _, _⟩ := wellFormed_facts h
  obtain ⟨hl, hp⟩ := cutStream_pieces (initStream c g pwr contrast) c.initFraming hpos
    (by rw [initStream_length, hsum])
  refine ⟨by simp [initFrames, hl], ?_⟩
  intro f hf
  obtain ⟨p, hmem, rfl⟩ := List.mem_map.mp hf
  exact goodFrame_cmdFrame (hp p hmem).1
    fun b hb => initStream_no_tag c g pwr contrast b ((hp p hmem).2 b hb)

theorem pages_pos {c : Config} (h : c.wellFormed = true) : 1 ≤ pages c := by
  have := wellFormed_facts h
  unfold pages; omega

/-- Every frame a step sends is a good frame (R81). -/
theorem sendFrame_good {s : State} {op : SeqOp} {k : Nat} {f : List WireByte}
    (hc : s.cfg.wellFormed = true) (h : sendFrame s op k = some f) : GoodFrame f := by
  unfold sendFrame at h
  split at h
  · rename_i j hj
    obtain ⟨g, hg, rfl⟩ := Option.map_eq_some_iff.mp h
    obtain ⟨hl, hgood⟩ := initFrames_facts hc g s.pwr s.contrast
    have hlt : j < (initFrames s.cfg g s.pwr s.contrast).length := by
      rw [hl]
      obtain ⟨_, h1, h2, rfl⟩ := stepKind_initFrame hj
      have : initBase s.cfg + s.cfg.initFraming.length = flushBase s.cfg := rfl
      omega
    rw [List.getD_eq_getElem?_getD, List.getElem?_eq_getElem hlt]
    exact hgood _ (List.getElem_mem hlt)
  · injection h with h
    subst h
    exact goodFrame_flushFrame (wellFormed_facts hc).1 _ _
  · cases h

/-- Everything a step of an operation can do. -/
theorem seqStep_cases {op : SeqOp} {k : Nat} {s t : State} (h : seqStep op k s = .next t) :
    (op = .begin ∧ k = 0 ∧ t = beginAllocate s) ∨
    (op = .begin ∧ 1 ≤ k ∧ k < 2 + s.cfg.splash.length ∧ ∃ fb, t = advance op k { s with fb := fb } ∧
      (Memory.wf s.fb = true → Memory.wf fb = true) ∧
      (Memory.below s.fb (nFb s.cfg) = true → Memory.below fb (nFb s.cfg) = true)) ∨
    (op = .begin ∧ 2 ≤ k ∧ k < 2 + s.cfg.splash.length ∧
      ∃ b ∈ s.cfg.splash, ∃ fb, blit s b.x b.y b.srcBase b.w b.h .set = .srcRange fb ∧
      t = raiseFault .srcRange { s with fb := fb } ∧
      (Memory.wf s.fb = true → Memory.wf fb = true) ∧
      (Memory.below s.fb (nFb s.cfg) = true → Memory.below fb (nFb s.cfg) = true)) ∨
    (op = .begin ∧ k = 2 + s.cfg.splash.length ∧ ∃ g, geometry s.cfg = some g ∧
      t = advance op k { s with contrast := contrastFor g s.pwr }) ∨
    (∃ f, sendFrame s op k = some f ∧ k < stepCount s.cfg op ∧ (op = .begin → initBase s.cfg ≤ k) ∧
      t = sendStep op k f s) := by
  unfold seqStep at h
  rcases stepKind_cases s.cfg op k with ⟨e, ho, hk⟩ | ⟨e, ho, hk⟩ | ⟨b, e, hb, ho, h2, h3, _⟩ |
    ⟨e, ho, hk⟩ | ⟨e, ho, h1, h2⟩ | ⟨e, ho, h1, h2⟩ | ⟨e, ho, h1⟩ | ⟨e, _⟩ <;> rw [e] at h
  · injection h with h
    exact .inl ⟨ho, hk, h.symm⟩
  · injection h with h
    exact .inr (.inl ⟨ho, by omega, by omega, _, h.symm, fun h => Memory.wf_fill h _ _,
      fun h => Memory.below_fill h _⟩)
  · have hwf := wf_blit s b.x b.y b.srcBase b.w b.h .set
    have hbl := below_blit s b.x b.y b.srcBase b.w b.h .set
    simp only at h
    split at h
    · rename_i fb hr
      rw [hr] at hwf hbl
      injection h with h
      exact .inr (.inl ⟨ho, by omega, h3, fb, h.symm, hwf, hbl⟩)
    · rename_i fb hr
      rw [hr] at hwf hbl
      injection h with h
      exact .inr (.inr (.inl ⟨ho, h2, h3, b, hb, fb, hr, h.symm, hwf, hbl⟩))
  · simp only at h
    split at h
    · cases h
    · rename_i g hg
      injection h with h
      exact .inr (.inr (.inr (.inl ⟨ho, hk, g, hg, h.symm⟩)))
  · simp only at h
    split at h
    · cases h
    · rename_i g hg
      injection h with h
      refine .inr (.inr (.inr (.inr ⟨_, by simp [sendFrame, e, hg], ?_, fun _ => h1, h.symm⟩)))
      subst ho
      have : stepCount s.cfg .begin = flushBase s.cfg + 2 * pages s.cfg := rfl
      omega
  · injection h with h
    exact .inr (.inr (.inr (.inr ⟨_, by simp [sendFrame, e], by subst ho; exact h2,
      fun _ => by unfold flushBase at h1; omega, h.symm⟩)))
  · injection h with h
    exact .inr (.inr (.inr (.inr ⟨flushFrame s.cfg s.fb k, by simp [sendFrame, e],
      by subst ho; exact h1, (fun hb => by rw [ho] at hb; cases hb), h.symm⟩)))
  · cases h

/-- A step that sends is `sendStep` of its frame. -/
theorem seqStep_send {op : SeqOp} {k : Nat} {s : State} {f : List WireByte}
    (h : sendFrame s op k = some f) : seqStep op k s = .next (sendStep op k f s) := by
  unfold sendFrame at h
  unfold seqStep
  split at h
  · rename_i j hj
    obtain ⟨g, hg, rfl⟩ := Option.map_eq_some_iff.mp h
    simp [hj, hg]
  · rename_i m hm
    injection h with h
    subst h
    simp [hm]
  · cases h

/-! ### The step -/

/-- Everything a step can do. -/
theorem step_cases {s t : State} (h : step s = .next t) :
    s.cfg.wellFormed = true ∧ s.faultValid = false ∧
    ((∃ b rest, s.emit = b :: rest ∧
        (b.slot = .tag ∧ (b.byte = 0x00#8 ∨ b.byte = 0x40#8) ∧
            t = openFrame b.byte { s with emit := rest } ∨
          ¬ (b.slot = .tag ∧ (b.byte = 0x00#8 ∨ b.byte = 0x40#8)) ∧
            t = appendByte b.byte { s with emit := rest })) ∨
      (s.emit = [] ∧ ∃ op k, s.seq = .running op k ∧ seqStep op k s = .next t) ∨
      (s.emit = [] ∧ s.seq = .idle ∧ (s.busy = true ∨ s.offered = []) ∧ t = s) ∨
      (s.emit = [] ∧ s.seq = .idle ∧ s.busy = false ∧ ∃ q rest, s.offered = q :: rest ∧
        ((∃ i, decodeRequest q = .ok i ∧ exec i { s with offered := rest, busy := true } = .next t) ∨
          (∃ e, decodeRequest q = .error e ∧
            t = raiseFault .illegalOp { s with offered := rest, busy := true })))) := by
  unfold step fetch at h
  cases hc : s.cfg.wellFormed with
  | false => simp [hc] at h
  | true =>
  cases hf : s.faultValid with
  | true => simp [hc, hf] at h
  | false =>
  refine ⟨rfl, rfl, ?_⟩
  simp only [hc, hf, Bool.true_eq_false, if_false, Bool.false_eq_true] at h
  cases he : s.emit with
  | cons b rest =>
    refine .inl ⟨b, rest, rfl, ?_⟩
    simp only [he, fetchByte] at h
    cases hd : decodeWire b with
    | ok i =>
      simp only [hd, exec_wire hd] at h
      injection h with h
      unfold emitByte at h
      split at h
      · rename_i hs
        refine .inl ⟨hs, ?_, h.symm⟩
        obtain ⟨slot, v⟩ := b
        simp only at hs
        subst hs
        simp only [decodeWire] at hd
        split at hd
        · exact .inl ‹_›
        · split at hd
          · exact .inr ‹_›
          · cases hd
      · rename_i hs
        exact .inr ⟨fun hh => hs hh.1, h.symm⟩
    | error e =>
      simp only [hd] at h
      injection h with h
      refine .inr ⟨?_, h.symm⟩
      rintro ⟨hs, hv⟩
      obtain ⟨slot, v⟩ := b
      simp only at hs
      subst hs
      rcases hv with hv | hv <;> simp only at hv <;> subst hv <;> cases hd
  | nil =>
    simp only [he] at h
    cases hseq : s.seq with
    | running op k =>
      simp only [hseq] at h
      exact .inr (.inl ⟨rfl, op, k, rfl, h⟩)
    | idle =>
      simp only [hseq] at h
      cases hb : s.busy with
      | true =>
        simp only [hb] at h
        injection h with h
        exact .inr (.inr (.inl ⟨rfl, rfl, .inl rfl, h.symm⟩))
      | false =>
        cases ho : s.offered with
        | nil =>
          simp only [hb, ho] at h
          injection h with h
          exact .inr (.inr (.inl ⟨rfl, rfl, .inr rfl, h.symm⟩))
        | cons q rest =>
          simp only [hb, ho, acceptRequest] at h
          refine .inr (.inr (.inr ⟨rfl, rfl, rfl, q, rest, rfl, ?_⟩))
          cases hd : decodeRequest q with
          | ok i => simp only [hd] at h; exact .inl ⟨i, rfl, h⟩
          | error e =>
            simp only [hd] at h
            injection h with h
            exact .inr ⟨e, rfl, h.symm⟩

/-- A step of the operation in progress. -/
theorem step_running {s : State} {op : SeqOp} {k : Nat} (hc : s.cfg.wellFormed = true)
    (hf : s.faultValid = false) (he : s.emit = []) (hs : s.seq = .running op k) :
    step s = seqStep op k s := by
  unfold step fetch
  simp [hc, hf, he, hs]

/-- A request offered to an idle block is accepted and run. -/
theorem step_accept {s : State} {q : RequestWord} {rest : List RequestWord} {i : Instr}
    (hc : s.cfg.wellFormed = true) (hf : s.faultValid = false) (he : s.emit = [])
    (hs : s.seq = .idle) (hb : s.busy = false) (ho : s.offered = q :: rest)
    (hd : decodeRequest q = .ok i) : step s = exec i { s with offered := rest, busy := true } := by
  unfold step fetch
  simp [hc, hf, he, hs, hb, ho, acceptRequest, hd]

end Sys2Proof.Machine
end

