-- ==== Sys2Proof/Laws/Run.lean ====
section
/-! SUPPORT. Laws/Run.lean: runs of several steps, and the run of one whole `Send`: the frame is built, offered and
answered, and the step is complete (R79, R82). -/

namespace Sys2Proof.Machine

theorem core_run_succ (M : Host.Core) (n : Nat) (s : M.State) : Host.Core.run M (n + 1) s =
    match M.step s with
    | .next t => Host.Core.run M n t
    | .fault r => .fault r
    | .refused r => .refused r := rfl

/-- `steps` is the host's run of the machine. -/
theorem steps_eq_run (n : Nat) (s : State) : Host.Core.run Sys2Proof.core n s = steps n s := by
  induction n generalizing s with
  | zero => rfl
  | succ n ih =>
    refine (core_run_succ Sys2Proof.core n s).trans ?_
    rw [steps]
    have e : Sys2Proof.core.step s = step s := rfl
    cases h : step s with
    | next t => rw [h] at e; rw [e]; exact ih t
    | fault r => rw [h] at e; rw [e]; rfl
    | refused r => rw [h] at e; rw [e]; rfl

/-- `n` steps from `s` lead to `t`. -/
def Runs (n : Nat) (s t : State) : Prop := steps n s = .next t

theorem Runs.zero (s : State) : Runs 0 s s := rfl

theorem Runs.step {s t u : State} {n : Nat} (h : Machine.step s = .next t) (hn : Runs n t u) :
    Runs (n + 1) s u := by
  unfold Runs
  rw [steps, h]
  exact hn

theorem Runs.one {s t : State} (h : Machine.step s = .next t) : Runs 1 s t := Runs.step h (Runs.zero t)

theorem Runs.trans {s t u : State} {m n : Nat} (h : Runs m s t) (hn : Runs n t u) :
    Runs (m + n) s u := by
  induction m generalizing s with
  | zero =>
    have : s = t := by
      have h' : Host.Outcome.next s = Host.Outcome.next t := h
      injection h'
    subst this
    rwa [Nat.zero_add]
  | succ m ih =>
    unfold Runs at h
    rw [steps] at h
    cases hs : Machine.step s with
    | next v =>
      rw [hs] at h
      have := Runs.step hs (ih h)
      rwa [Nat.add_right_comm] at this
    | fault r => rw [hs] at h; cases h
    | refused r => rw [hs] at h; cases h

theorem Runs.reaches {n : Nat} {s t : State} (h : Runs n s t) : Reaches s t := ⟨n, h⟩

theorem Reaches.refl (s : State) : Reaches s s := ⟨0, rfl⟩

theorem Reaches.step {s t u : State} (h : Machine.step s = .next t) (hn : Reaches t u) : Reaches s u := by
  obtain ⟨n, hn⟩ := hn
  exact ⟨n + 1, Runs.step h hn⟩

theorem Reaches.trans {s t u : State} (h : Reaches s t) (hn : Reaches t u) : Reaches s u := by
  obtain ⟨m, h⟩ := h
  obtain ⟨n, hn⟩ := hn
  exact ⟨m + n, Runs.trans h hn⟩

/-- The framer copies the bytes after the tag one by one. -/
theorem runs_emit {s : State} (hc : s.cfg.wellFormed = true) (hf : s.faultValid = false)
    (r : List WireByte) (fr : List Byte) (hr : ∀ b ∈ r, b.slot ≠ .tag) :
    Runs r.length { s with emit := r, frame := fr } { s with emit := [], frame := fr ++ frameBytes r } := by
  induction r generalizing fr with
  | nil => simpa [frameBytes] using Runs.zero _
  | cons b r ih =>
    have hb : b.slot ≠ .tag := hr b (by simp)
    have hstep : Machine.step { s with emit := b :: r, frame := fr } =
        .next { s with emit := r, frame := fr ++ [b.byte] } := by
      rw [step_emit (s := { s with emit := b :: r, frame := fr }) hc hf rfl fun h => absurd h hb]
      simp [emitByte, hb, appendByte]
    have := Runs.step hstep (ih (fr ++ [b.byte]) fun c hc => hr c (by simp [hc]))
    simpa [frameBytes, List.append_assoc] using this

/-- One whole `Send` that the transport answers with `ok`. -/
theorem runs_send {s : State} {op : SeqOp} {k : Nat} {f : List WireByte} {rest : List Answer}
    (hc : s.cfg.wellFormed = true) (hf : s.faultValid = false) (he : s.emit = []) (hfr : s.frame = [])
    (hw : awaiting s = false) (hs : s.seq = .running op k) (hsend : sendFrame s op k = some f)
    (ha : s.answers = .ok :: rest) :
    Reaches s (advance op k
      { s with trace := s.trace ++ [⟨s.cfg.busAddr, s.cfg.busChannel, frameBytes f, .ok⟩], answers := rest }) := by
  obtain ⟨v, r, rfl, hv, hne, htag⟩ := sendFrame_good hc hsend
  -- the framer is given the frame's bytes
  have h1 : Machine.step s = .next { s with emit := ⟨.tag, v⟩ :: r } := by
    rw [step_running hc hf he hs, seqStep_send hsend, sendStep, if_neg (by simp [hw]), if_pos hfr]
  -- the tag opens the frame
  have h2 : Machine.step { s with emit := ⟨.tag, v⟩ :: r } = .next { s with emit := r, frame := [v] } := by
    rw [step_emit (s := { s with emit := ⟨.tag, v⟩ :: r }) hc hf rfl fun _ => hv]
    simp [emitByte, openFrame]
  -- the other bytes follow
  have h3 := runs_emit (s := s) hc hf r [v] htag
  -- the frame is offered
  have hne' : ([v] : List Byte) ++ frameBytes r ≠ [] := by simp
  have h4 : Machine.step { s with emit := [], frame := [v] ++ frameBytes r } =
      .next { s with
        emit := [], frame := [],
        trace := s.trace ++ [⟨s.cfg.busAddr, s.cfg.busChannel, v :: frameBytes r, .pending⟩] } := by
    rw [step_running (s := { s with emit := [], frame := [v] ++ frameBytes r }) hc hf rfl hs,
      seqStep_send (s := { s with emit := [], frame := [v] ++ frameBytes r }) hsend, sendStep,
      if_neg, if_neg hne']
    · rfl
    · show ¬ awaiting s = true
      simp [hw]
  -- the transport answers
  have h5 : Machine.step { s with
        emit := [], frame := [],
        trace := s.trace ++ [⟨s.cfg.busAddr, s.cfg.busChannel, v :: frameBytes r, .pending⟩] } =
      .next (advance op k { s with
        trace := s.trace ++ [⟨s.cfg.busAddr, s.cfg.busChannel, v :: frameBytes r, .ok⟩], answers := rest }) := by
    have hw' : awaiting { s with
        emit := [], frame := [],
        trace := s.trace ++ [⟨s.cfg.busAddr, s.cfg.busChannel, v :: frameBytes r, .pending⟩] } = true := by
      rw [awaiting_of_trace rfl]; rfl
    rw [step_running (by exact hc) (by exact hf) rfl (by exact hs),
      seqStep_send (s := { s with
        emit := [], frame := [],
        trace := s.trace ++ [⟨s.cfg.busAddr, s.cfg.busChannel, v :: frameBytes r, .pending⟩] }) hsend, sendStep,
      if_pos hw', pollTransport]
    have hans := takeAnswer_cons (s := { s with
        emit := [], frame := [],
        trace := s.trace ++ [⟨s.cfg.busAddr, s.cfg.busChannel, v :: frameBytes r, .pending⟩] }) (by exact ha)
    rw [hans.1]
    simp only [hans.2, busAnswer, answerLast_append]
    congr 3
    · exact he.symm
    · exact hfr.symm
  exact ⟨_, Runs.step h1 (Runs.step h2 (h3.trans (Runs.step h4 (Runs.one h5))))⟩

end Sys2Proof.Machine
end

