-- ==== Sys2Proof/Tests/Slice0.lean ====
section
/-! SUPPORT. Tests/Slice0.lean: the ill-formed terms WellFormed refuses, words written out from spec/30_encoding.md,
one-step tests with results from spec/95_test_vectors.md, and a witness for the hypotheses of each statement. -/

namespace Sys2Proof.Tests

open Sys2Proof Sys2Proof.Machine

/-! ### Configurations and states to test with -/

/-- Command bytes to test with: the lineage profile of 95_test_vectors.md V-I1. -/
def lineage : CommandBytes where
  displayOff := 0xAE#8
  setClockDiv := 0xD5#8
  clockDivValue := 0x80#8
  setMultiplex := 0xA8#8
  setDisplayOffset := 0xD3#8
  setStartLine := 0x40#8
  chargePump := 0x8D#8
  cpSelectInternal := 0x14#8
  memoryMode := 0x20#8
  memoryModeValue := 0x00#8
  segRemap := 0xA1#8
  comScanDec := 0xC8#8
  setComPins := 0xDA#8
  setContrast := 0x81#8
  setPrecharge := 0xD9#8
  prechargeExternal := 0x22#8
  prechargeInternal := 0xF1#8
  setVcomDetect := 0xDB#8
  vcomValue := 0x40#8
  displayAllOnResume := 0xA4#8
  normalDisplay := 0xA6#8
  deactivateScroll := 0x2E#8
  displayOn := 0xAF#8

/-- The default configuration of 95_test_vectors.md, with the lineage bytes and 6 bytes of source memory. -/
def panel : Config where
  width := 128
  height := 64
  busAddr := 0x3C#8
  busChannel := 0
  colLow := 0x00#8
  geometryTable := [⟨128, 64, 0x12#8, 0xCF#8, 0x9F#8⟩]
  orientation := .identity
  splash := []
  initFraming := [5, 4, 1, 4, 4, 2, 6]
  srcSize := 6
  commands := lineage

/-- A small panel with pad bits: 4 columns, 12 rows, two pages; one splash blit; three source bytes. -/
def tiny : Config where
  width := 4
  height := 12
  busAddr := 0x3C#8
  busChannel := 7
  colLow := 0x02#8
  geometryTable := [⟨4, 12, 0x02#8, 0x8F#8, 0x10#8⟩]
  orientation := .identity
  splash := [⟨0, 0, 0, 3, 2⟩]
  initFraming := [25, 1]
  srcSize := 3
  commands := lineage

/-- A block with a display that is on, an all-zero framebuffer and source bytes `A0 40 FF C0 FF C0`. -/
def lit (c : Config) : State :=
  { State.reset with
    cfg := c
    lc := .displayOn
    fbValid := true
    contrast := 0xCF#8
    pwr := .internal
    src := [(0, 0xA0#8), (1, 0x40#8), (2, 0xFF#8), (3, 0xC0#8), (4, 0xFF#8), (5, 0xC0#8)] }

/-- A block before BEGIN, with everything concrete. -/
def dark (c : Config) : State :=
  { lit c with
    lc := .uninitialized
    fbValid := false }

/-- A block with the request `q` offered. -/
def offer (q : RequestWord) (s : State) : State := { s with offered := [q] }

/-- The next state, if there is one. -/
def got : Host.Outcome State Fault Refusal → Option State
  | .next t => some t
  | _ => none

/-- One field after one step. -/
def field {α : Type} (f : State → α) (s : State) : Option α := (got (step s)).map f

/-! ### WellFormed refuses an ill-formed term of each kind (R12, R53) -/

theorem test_panel_wellFormed : panel.wellFormed = true := by decide
theorem test_tiny_wellFormed : tiny.wellFormed = true := by decide
theorem test_launch_wellFormed : Config.launch.wellFormed = true := by decide
theorem test_bounds_width : { panel with width := 0 }.boundsOk = false ∧
    { panel with width := 0 }.wellFormed = false := by decide
theorem test_bounds_height : { panel with height := 129 }.boundsOk = false ∧
    { panel with height := 129 }.wellFormed = false := by decide
theorem test_geometry : { panel with height := 32 }.geometryOk = false ∧
    { panel with height := 32 }.wellFormed = false := by decide
theorem test_contrasts : { panel with geometryTable := [⟨128, 64, 0#8, 0xCE#8, 0x9F#8⟩] }.contrastsOk = false ∧
    { panel with geometryTable := [⟨128, 64, 0#8, 0xCE#8, 0x9F#8⟩] }.wellFormed = false := by decide
theorem test_colLow : { panel with colLow := 0x01#8 }.colLowOk = false ∧
    { panel with colLow := 0x01#8 }.wellFormed = false := by decide
theorem test_orientation : { panel with orientation := .rotate90 }.orientationOk = false ∧
    { panel with orientation := .rotate90 }.wellFormed = false := by decide
theorem test_splash : { panel with splash := [⟨0, 0, 4, 9, 2⟩] }.splashOk = false ∧
    { panel with splash := [⟨0, 0, 4, 9, 2⟩] }.wellFormed = false := by decide
theorem test_splash_empty_blit : { panel with splash := [⟨0, 0, 100, 0, 2⟩] }.wellFormed = true := by decide
theorem test_framing_empty_piece : { panel with initFraming := [26, 0] }.framingOk = false ∧
    { panel with initFraming := [26, 0] }.wellFormed = false := by decide
theorem test_framing_sum : { panel with initFraming := [5, 4] }.wellFormed = false := by decide
theorem test_colour_writePixel : (Instr.writePixel 0 0 .illegal).wellFormed = false ∧
    (Instr.writePixel 0 0 (.legal .set)).wellFormed = true := by decide
theorem test_colour_drawBitmap : (Instr.drawBitmap 0 0 1 1 0 .illegal).wellFormed = false ∧
    (Instr.drawBitmap 0 0 1 1 0 (.legal .invert)).wellFormed = true := by decide

/-! ### Words written out from 30_encoding.md and 95_test_vectors.md -/

-- R50, R52, R54 (V-I1, V-I2)
theorem test_decode_begin : decodeRequest 0x00000000000000000000000000000001#128 = .ok (.begin .internal) ∧
    decodeRequest 0x00000000000000000000000000000041#128 = .ok (.begin .external) := by decide
-- V-F13, V-D10
theorem test_decode_clear : decodeRequest 0x00000000000000000000000000000002#128 = .ok .clear ∧
    decodeRequest 0x00000000000000000000000000000032#128 = .ok .clear := by decide
-- V-F12
theorem test_decode_fill : decodeRequest 0x00000000000000000000000000000003#128 = .ok .fill := by decide
-- V-F5, V-F6: op 4, colour 1 in bits 5:4, x in bits 23:8, y in bits 39:24
theorem test_decode_writePixel :
    decodeRequest 0x0000000000000000000000003F007F14#128 = .ok (.writePixel 127 63 (.legal .set)) ∧
    decodeRequest 0x00000000000000000000000000FFFF14#128 = .ok (.writePixel (-1) 0 (.legal .set)) := by decide
-- V-B13, V-B7: w in bits 55:40, h in bits 71:56; the source address 0x01020304 in bits 103:72
theorem test_decode_drawBitmap :
    decodeRequest 0x0000000000000000020003003E007E05#128 =
      .ok (.drawBitmap 126 62 3 2 0 (.legal .clear)) ∧
    decodeRequest 0x00000001020304FFFF00030000000015#128 =
      .ok (.drawBitmap 0 0 3 (-1) 0x01020304 (.legal .set)) := by decide
-- V-D9
theorem test_decode_flush : decodeRequest 0x00000000000000000000000000123406#128 = .ok .flush := by decide
-- V-F10
theorem test_decode_readPixel : decodeRequest 0x0000000000000000000000000B000507#128 = .ok (.readPixel 5 11) := by
  decide
-- V-D1 to V-D6
theorem test_decode_reserved :
    decodeRequest 0x00000000000000000000000000000000#128 = .error .reservedOp ∧
    decodeRequest 0x00000000000000000000000000000008#128 = .error .reservedOp ∧
    decodeRequest 0x0000000000000000000000000000000F#128 = .error .reservedOp ∧
    decodeRequest 0x0000000000000000000000000A000594#128 = .error .reservedBits ∧
    decodeRequest 0x00000100000000000000000000000002#128 = .error .reservedBits ∧
    decodeRequest 0x80000000000000000000000000000002#128 = .error .reservedBits := by decide
-- V-D7, V-D8: colour code 3
theorem test_decode_colour3 :
    decodeRequest 0x0000000000000000000000000000C834#128 = .ok (.writePixel 200 0 .illegal) ∧
    decodeRequest 0x00000000000000000100010000000035#128 = .ok (.drawBitmap 0 0 1 1 0 .illegal) := by decide
-- R56
theorem test_decode_tags : decodeWire ⟨.tag, 0x00#8⟩ = .ok .tagCmd ∧ decodeWire ⟨.tag, 0x40#8⟩ = .ok .tagData := by
  decide
-- R59, R60 (R97's frame)
theorem test_decode_pageSelect : decodeWire ⟨.pageSelect, 0xB0#8⟩ = .ok (.pageSel 0) ∧
    decodeWire ⟨.pageSelect, 0xBF#8⟩ = .ok (.pageSel 15) ∧
    decodeWire ⟨.colLow, 0x00#8⟩ = .ok .colLowNormal ∧ decodeWire ⟨.colLow, 0x02#8⟩ = .ok .colLowVariant ∧
    decodeWire ⟨.colHigh, 0x10#8⟩ = .ok .colHigh := by decide
-- R61, R57, R90, R58
theorem test_decode_init : decodeWire ⟨.multiplex, 0x3F#8⟩ = .ok (.multiplexOperand 63) ∧
    decodeWire ⟨.multiplex, 0x7F#8⟩ = .ok (.multiplexOperand 127) ∧
    decodeWire ⟨.displayOffset, 0x00#8⟩ = .ok .displayOffsetValue ∧
    decodeWire ⟨.chargePumpExternal, 0x10#8⟩ = .ok .cpSelectExternal ∧
    decodeWire ⟨.contrast128x64, 0xCF#8⟩ = .ok .contrast128x64Internal ∧
    decodeWire ⟨.contrast128x64, 0x9F#8⟩ = .ok .contrast128x64External := by decide
theorem test_decode_unlisted : decodeWire ⟨.command, 0xAE#8⟩ = .error .unlistedByte ∧
    decodeWire ⟨.pixel, 0x00#8⟩ = .error .unlistedByte ∧ decodeWire ⟨.tag, 0x41#8⟩ = .error .unlistedByte ∧
    decodeWire ⟨.multiplex, 0x80#8⟩ = .error .unlistedByte := by decide
-- a bare word of the table (assumption 7)
theorem test_tableWord : decodeTableWord 128 0x41 = some (.begin .external) ∧
    decodeTableWord 128 0 = none ∧ decodeTableWord 8 0xB7 = some (.pageSel 7) ∧
    decodeTableWord 8 0x00 = some .tagCmd ∧ decodeTableWord 8 0x02 = some .colLowVariant ∧
    decodeTableWord 8 0x10 = some .colHigh ∧ decodeTableWord 8 0x3F = some (.multiplexOperand 63) ∧
    decodeTableWord 8 0x9F = some .contrast128x64External := by decide

/-! ### One step from reset -/

-- V-D15, V-D13, V-D14: the responses at reset
theorem test_reset_reservedOp : field (·.responses) (State.reset.withFetchWord 128 8) = some [0x03#6] := by decide
theorem test_reset_clear : field (·.responses) (State.reset.withFetchWord 128 2) = some [0x07#6] := by decide
theorem test_reset_colour3 : field (·.responses) (State.reset.withFetchWord 128 0x34) = some [0x05#6] := by decide
-- R97's page-select byte, from reset
theorem test_reset_pageSel : field (·.frame) (State.reset.withFetchWord 8 0xB7) = some [0xB7#8] := by decide

/-! ### One step on a small state -/

-- V-I4: the allocation fails
theorem test_begin_alloc_fails :
    field (fun t => (t.lc, t.fbValid, t.responses, t.trace)) { offer 0x01#128 (dark panel) with allocs := [false] } =
      some (.failed, false, [0x00#6], []) := by decide
-- R84, R85: the allocation succeeds
theorem test_begin_starts :
    field (fun t => (t.lc, t.fbValid, t.pwr, t.seq, t.busy))
        { offer 0x41#128 (dark panel) with allocs := [true] } =
      some (.bufferAllocated, true, .external, .running .begin 1, true) := by decide
-- V-F13 and V-F12 on the 4 by 12 panel (8 bytes)
theorem test_clear : field (fun t => (t.fb, t.responses)) (offer 0x02#128 { lit tiny with fb := [(3, 0x81#8)] }) =
    some ([], [0x00#6]) := by decide
theorem test_fill : field (·.fb) (offer 0x03#128 (lit tiny)) =
    some [(0, 0xFF#8), (1, 0xFF#8), (2, 0xFF#8), (3, 0xFF#8), (4, 0xFF#8), (5, 0xFF#8), (6, 0xFF#8), (7, 0xFF#8)] := by
  decide
-- V-F1 and V-F6
theorem test_writePixel : field (fun t => (t.fb, t.responses)) (offer 0x0A000514#128 (lit panel)) =
    some ([(133, 0x04#8)], [0x00#6]) := by decide
theorem test_writePixel_outside : field (fun t => (t.fb, t.responses)) (offer 0x00FFFF14#128 (lit panel)) =
    some ([], [0x00#6]) := by decide
-- V-F9 and V-F11
theorem test_readPixel : field (·.responses) (offer 0x0A000507#128 { lit panel with fb := [(133, 0x04#8)] }) =
    some [0x20#6] := by decide
theorem test_readPixel_outside : field (·.responses) (offer 0x00FFFF07#128 (lit panel)) = some [0x00#6] := by decide
-- V-B1 and V-B11
theorem test_drawBitmap : field (fun t => (t.fb, t.responses)) (offer 0x00000000000000000200030000000015#128 (lit panel)) =
    some ([(0, 0x01#8), (1, 0x02#8), (2, 0x01#8)], [0x00#6]) := by decide
theorem test_drawBitmap_faults :
    field (fun t => (t.fb, t.responses, t.faultCode))
        (offer 0x00000000000000000200080000000015#128
          { lit { panel with srcSize := 1 } with src := [(0, 0xFF#8)] }) =
      some ([(0, 0x01#8), (1, 0x01#8), (2, 0x01#8), (3, 0x01#8), (4, 0x01#8), (5, 0x01#8), (6, 0x01#8),
        (7, 0x01#8)], [0x0D#6], .srcRange) := by decide
-- R94
theorem test_flush : field (fun t => (t.seq, t.busy, t.responses)) (offer 0x06#128 (lit panel)) =
    some (.running .flush 0, true, []) := by decide
-- R56, R79
theorem test_tagCmd : field (·.frame) { lit panel with emit := [⟨.tag, 0x00#8⟩] } = some [0x00#8] := by decide
theorem test_tagData : field (·.frame) { lit panel with emit := [⟨.tag, 0x40#8⟩] } = some [0x40#8] := by decide
-- V-L1's page-select frame of page 1, one byte at a time
theorem test_pageSel :
    field (·.frame) { lit panel with emit := [⟨.pageSelect, 0xB1#8⟩], frame := [0x00#8] } =
      some [0x00#8, 0xB1#8] := by decide
theorem test_colLowNormal :
    field (·.frame) { lit panel with emit := [⟨.colLow, 0x00#8⟩], frame := [0x00#8, 0xB1#8] } =
      some [0x00#8, 0xB1#8, 0x00#8] := by decide
theorem test_colLowVariant :
    field (·.frame) { lit panel with emit := [⟨.colLow, 0x02#8⟩], frame := [0x00#8, 0xB1#8] } =
      some [0x00#8, 0xB1#8, 0x02#8] := by decide
theorem test_colHigh :
    field (·.frame) { lit panel with emit := [⟨.colHigh, 0x10#8⟩], frame := [0x00#8, 0xB1#8, 0x00#8] } =
      some [0x00#8, 0xB1#8, 0x00#8, 0x10#8] := by decide
-- V-I1 and V-I2, the bytes the source gives
theorem test_multiplex : field (·.frame) { lit panel with emit := [⟨.multiplex, 0x3F#8⟩] } = some [0x3F#8] := by
  decide
theorem test_displayOffset : field (·.frame) { lit panel with emit := [⟨.displayOffset, 0x00#8⟩] } =
    some [0x00#8] := by decide
theorem test_cpSelectExternal : field (·.frame) { lit panel with emit := [⟨.chargePumpExternal, 0x10#8⟩] } =
    some [0x10#8] := by decide
theorem test_contrast_internal : field (·.frame) { lit panel with emit := [⟨.contrast128x64, 0xCF#8⟩] } =
    some [0xCF#8] := by decide
theorem test_contrast_external : field (·.frame) { lit panel with emit := [⟨.contrast128x64, 0x9F#8⟩] } =
    some [0x9F#8] := by decide

/-! ### The init frames (V-I1, V-I2 [lineage profile]) and the flush frames (V-L2) -/

theorem test_init_internal : (panel.geometryTable.map fun g =>
      (initFrames panel g .internal 0xCF#8).map frameBytes) =
    [[[0x00#8, 0xAE#8, 0xD5#8, 0x80#8, 0xA8#8, 0x3F#8], [0x00#8, 0xD3#8, 0x00#8, 0x40#8, 0x8D#8],
      [0x00#8, 0x14#8], [0x00#8, 0x20#8, 0x00#8, 0xA1#8, 0xC8#8], [0x00#8, 0xDA#8, 0x12#8, 0x81#8, 0xCF#8],
      [0x00#8, 0xD9#8, 0xF1#8], [0x00#8, 0xDB#8, 0x40#8, 0xA4#8, 0xA6#8, 0x2E#8, 0xAF#8]]] := by decide
theorem test_init_external : (panel.geometryTable.map fun g =>
      ((initFrames panel g .external 0x9F#8).map frameBytes).drop 2 |>.take 1) = [[[0x00#8, 0x10#8]]] := by decide
theorem test_flush_page1 : (frameBytes (flushFrame panel [(133, 0x04#8)] 2)) = [0x00#8, 0xB1#8, 0x00#8, 0x10#8] ∧
    (frameBytes (flushFrame panel [(133, 0x04#8)] 3)).take 8 =
      [0x40#8, 0x00#8, 0x00#8, 0x00#8, 0x00#8, 0x00#8, 0x04#8, 0x00#8] := by decide

/-! ### Witnesses: a concrete state and operands that meet the hypotheses of each statement -/

/-- BEGIN's or FLUSH's step `k` of the small panel, with nothing in the framer. -/
def atStep (op : SeqOp) (k : Nat) : State :=
  { lit tiny with
    seq := .running op k
    busy := true }

/-- The same, with the frame of bytes `f` offered and unanswered, and the transport about to say `a`. -/
def pending (op : SeqOp) (k : Nat) (f : List Byte) (a : Answer) : State :=
  { atStep op k with
    trace := [⟨0x3C#8, 7, f, .pending⟩]
    answers := [a] }

theorem witness_UnusedRequestFieldsAreIgnored :
    decodeRequest 0x06#128 = .ok .flush ∧ reservedClear 0x123406#128 ∧
      requestOp 0x123406#128 = requestOp 0x06#128 ∧ sameOperands .flush 0x06#128 0x123406#128 := by
  unfold reservedClear requestOp sameOperands; decide
theorem witness_UnusedRequestFieldsAreIgnored_operands :
    decodeRequest 0x0A000507#128 = .ok (.readPixel 5 10) ∧ reservedClear 0xFF000000000A000577#128 ∧
      requestOp 0xFF000000000A000577#128 = requestOp 0x0A000507#128 ∧
      sameOperands (.readPixel 5 10) 0x0A000507#128 0xFF000000000A000577#128 := by
  unfold reservedClear requestOp sameOperands; decide
theorem witness_Ready : Ready (offer 0x06#128 (lit panel)) 0x06#128 [] := by unfold Ready; decide
theorem witness_StepRunsTheDecodedRequest : Ready (offer 0x41#128 (dark panel)) 0x41#128 [] ∧
    decodeRequest 0x41#128 = .ok (.begin .external) := by unfold Ready; decide
theorem witness_StepRunsTheDecodedWireByte :
    (lit panel).cfg.wellFormed = true ∧ (lit panel).faultValid = false ∧
      { lit panel with emit := [⟨.colHigh, 0x10#8⟩] }.emit = [⟨.colHigh, 0x10#8⟩] ∧
      decodeWire ⟨.colHigh, 0x10#8⟩ = .ok .colHigh := by decide
theorem witness_StepRunsTheDecodedWireByte_unlisted : ∃ e, decodeWire ⟨.command, 0xAE#8⟩ = .error e := ⟨_, rfl⟩
theorem witness_FetchedWordRunsNext : State.reset.cfg.wellFormed = true ∧
    decodeTableWord 128 0x01 = some (.begin .internal) ∧ decodeTableWord 8 0x40 = some .tagData := by decide
theorem witness_RequestChecksRunInOrder_reserved :
    Ready (offer 0x08#128 (lit panel)) 0x08#128 [] ∧ 8 ≤ requestOp 0x08#128 ∧ requestOp 0x0F#128 = 15 ∧
      requestOp 0x00#128 = 0 ∧ ¬ reservedClear 0x82#128 ∧ ¬ reservedClear (1#128 <<< 104) ∧
      ¬ reservedClear (1#128 <<< 127) := by
  unfold Ready requestOp reservedClear; decide
theorem witness_RequestChecksRunInOrder_colour :
    Ready (offer 0xC834#128 (dark panel)) 0xC834#128 [] ∧ reservedClear 0xC834#128 ∧ requestOp 0xC834#128 = 4 ∧
      requestField 0xC834#128 4 2 = 3#2 ∧ requestOp 0x35#128 = 5 ∧ requestField 0x35#128 4 2 = 3#2 := by
  unfold Ready requestOp reservedClear requestField; decide
theorem witness_RequestChecksRunInOrder_begin :
    Ready (offer 0x01#128 (lit panel)) 0x01#128 [] ∧ reservedClear 0x01#128 ∧ requestOp 0x01#128 = 1 ∧
      (lit panel).lc ≠ .uninitialized := by
  unfold Ready requestOp reservedClear; decide
theorem witness_RequestChecksRunInOrder_notReady :
    Ready (offer 0x37#128 (dark panel)) 0x37#128 [] ∧ reservedClear 0x37#128 ∧ requestOp 0x37#128 = 7 ∧
      requestOp 0x02#128 = 2 ∧ (dark panel).lc ≠ .displayOn := by
  unfold Ready requestOp reservedClear; decide
theorem witness_FaultedBlock : { lit panel with faultValid := true, faultCode := .bus }.cfg.wellFormed = true ∧
    { lit panel with faultValid := true, faultCode := .bus }.faultValid = true := by decide
theorem witness_LifecycleChecks : (dark panel).lc ≠ .displayOn ∧ (lit panel).lc ≠ .uninitialized ∧
    { lit panel with lc := .failed }.lc ≠ .displayOn := by decide
theorem witness_IllFormedConfigurationIsRefused :
    ({ lit panel with cfg := { panel with height := 0 } } : State).cfg.wellFormed = false := by decide
theorem witness_IdleBlockKeepsItsState : (lit panel).cfg.wellFormed = true ∧ (lit panel).faultValid = false ∧
    (lit panel).emit = [] ∧ (lit panel).seq = .idle ∧ (lit panel).offered = [] := by decide
theorem witness_RequestOfferedWhileBusyWaits :
    (offer 0x02#128 (pending .flush 3 [0x40#8, 0#8] .ok)).busy = true ∧
      field (fun t => (t.offered.length, t.busy, t.responses)) (offer 0x02#128 (pending .flush 3 [0x40#8, 0#8] .ok)) =
        some (1, false, [0x00#6]) := by decide
theorem witness_OneResponsePerAcceptedRequest : BusyInv (offer 0x02#128 (lit panel)) ∧
    field (fun t => (t.offered.length, t.responses.length)) (offer 0x02#128 (lit panel)) = some (0, 1) := by
  unfold BusyInv; decide
theorem witness_Drawing : (lit panel).lc = .displayOn ∧ (dark panel).lc ≠ .displayOn ∧
    Memory.wf (lit panel).fb = true := by decide
theorem witness_ReservedBitsFault : Ready (offer 0x82#128 (lit panel)) 0x82#128 [] ∧ requestOp 0x82#128 = 2 ∧
    ¬ reservedClear 0x82#128 := by
  unfold Ready requestOp reservedClear; decide
/-- The same with operation 5, and the bits of V-D5 and V-D6. -/
theorem witness_ReservedBitsFault_drawBitmap :
    Ready (offer 0x00000100000000000200030000000015#128 (lit panel)) 0x00000100000000000200030000000015#128 [] ∧
      requestOp 0x00000100000000000200030000000015#128 = 5 ∧
      ¬ reservedClear 0x00000100000000000200030000000015#128 ∧
      requestOp 0x80000000000000000200030000000015#128 = 5 ∧
      ¬ reservedClear 0x80000000000000000200030000000015#128 := by
  unfold Ready requestOp reservedClear; decide
theorem witness_ClearRule_outside : ¬ (1024 < panel.width * ((panel.height + 7) / 8)) ∧
    1023 < panel.width * ((panel.height + 7) / 8) := by decide
theorem witness_WritePixelRule : reservedClear 0x3F007F14#128 ∧ requestOp 0x3F007F14#128 = 4 ∧
    InPanel panel (127#16).toInt (63#16).toInt ∧ InPanel panel (0#16).toInt (0#16).toInt ∧
    ¬ InPanel panel (128#16).toInt (0#16).toInt ∧ ¬ InPanel panel (0#16).toInt (64#16).toInt ∧
    ¬ InPanel panel (0xFFFF#16).toInt (0#16).toInt := by
  unfold reservedClear requestOp InPanel; decide
theorem witness_ReadPixelRule : reservedClear 0x0A000507#128 ∧ requestOp 0x0A000507#128 = 7 := by
  unfold reservedClear requestOp; decide
theorem witness_FramebufferLaws_commute : InPanel panel (5#16).toInt (10#16).toInt ∧
    InPanel panel (127#16).toInt (63#16).toInt ∧ ((5#16, 10#16) ≠ (127#16, 63#16)) := by
  unfold InPanel; decide
theorem witness_PixelAddressLaw : 1 ≤ tiny.width ∧ InPanel tiny 3 11 ∧ InPanel tiny 0 0 ∧ 7 < nFb tiny ∧
    8 * (7 / tiny.width) + 3 < tiny.height ∧ ¬ 8 * (7 / tiny.width) + 4 < tiny.height := by
  unfold InPanel; decide
/-- Bits 4 to 7 of page 1 of the 4 by 12 panel are pad bits (R36). -/
theorem witness_PadBitsAreNotPixels : Memory.wf (lit tiny).fb = true ∧ 4 < nFb tiny ∧ NoPixel tiny 4 4 ∧
    NoPixel tiny 7 7 ∧ (lit tiny).lc = .displayOn := by
  refine ⟨rfl, by decide, ?_, ?_, rfl⟩ <;> intro x y hx hy ha <;>
    simp only [tiny] at hx hy ha <;> omega
theorem witness_DrawingSendsNothing : (∃ x y c, Instr.writePixel 5 10 .illegal = .writePixel x y c) ∧
    ∃ x y, Instr.readPixel 5 10 = .readPixel x y := ⟨⟨_, _, _, rfl⟩, ⟨_, _, rfl⟩⟩
/-- V-B11: the first row is inside the source memory, the second is not. -/
theorem witness_DrawBitmapRule : reservedClear 0x15#128 ∧ requestOp 0x15#128 = 5 ∧
    Covers 0 0 8 2 7 1 ∧ ¬ Covers 0 0 8 2 8 1 ∧ ¬ Covers 0 0 8 2 7 2 ∧
    sourceAddress 0 0 5 8 7 0 < panel.srcSize ∧ ¬ sourceAddress 0 0 5 8 7 1 < panel.srcSize ∧
    sourceBit (lit panel) 0 0 0 8 0 0 = true ∧ sourceBit (lit panel) 0 0 0 8 1 0 = false ∧
    ¬ sourceInside (lit panel) 5 8 2 ∧ sourceInside (lit panel) 4 8 2 ∧ sourceInside (lit panel) 100 0 2 := by
  unfold reservedClear requestOp Covers sourceAddress sourceBit sourceInside sourceAddress; decide
theorem witness_DrawBitmapRule_noPixel : NoPixel panel 1024 0 := by
  intro x y hx hy ha
  simp only [panel] at hx hy ha
  omega
theorem witness_DrawBitmapReadsOnlyItsSource : ∀ a, 0 ≤ a → a < 0 + 2 * ((3 + 7) / 8) →
    Memory.read [(0, 0xA0#8), (1, 0x40#8)] a = Memory.read (lit panel).src a := by
  intro a _ ha
  have : a = 0 ∨ a = 1 := by omega
  rcases this with rfl | rfl <;> rfl
theorem witness_BeginStartsOrReportsFailure : reservedClear 0x41#128 ∧ requestOp 0x41#128 = 1 ∧
    (dark panel).lc = .uninitialized ∧ allocResult { dark panel with allocs := [true] } = true ∧
    allocResult { dark panel with allocs := [false] } = false := by
  unfold reservedClear requestOp; decide
theorem witness_AtStep : AtStep (atStep .begin 1) .begin 1 ∧ AtStep (atStep .begin 2) .begin (2 + 0) ∧
    tiny.splash[0]? = some ⟨0, 0, 0, 3, 2⟩ ∧ AtStep (atStep .begin 3) .begin (2 + tiny.splash.length) := by
  unfold AtStep; decide
theorem witness_ContrastOfThe128x64Panel :
    AtStep { lit panel with seq := .running .begin 2 } .begin (2 + panel.splash.length) ∧ panel.width = 128 ∧
      panel.height = 64 ∧ (lit panel).pwr = .internal ∧ { lit panel with pwr := .external }.pwr = .external := by
  unfold AtStep; decide
theorem witness_BeginCompletes :
    Ready { offer 0x41#128 (dark tiny) with allocs := [true], answers := List.replicate (2 + 2 * pages tiny) .ok }
        0x41#128 [] ∧
      decodeRequest 0x41#128 = .ok (.begin .external) ∧ (dark tiny).frame = [] ∧ awaiting (dark tiny) = false ∧
      (dark tiny).lc = .uninitialized ∧ geometry tiny = some ⟨4, 12, 0x02#8, 0x8F#8, 0x10#8⟩ ∧
      tiny.initFraming.length = 2 := by
  unfold Ready; decide
theorem witness_BeginCompletes_noSplash : panel.splash = [] ∧ panel.wellFormed = true := by decide
theorem witness_BeginFaultsOnlyOnTheBus : AtStep (pending .begin 5 [0x00#8, 0xAF#8] .fail) .begin 5 ∧
    field (fun t => (t.faultValid, t.faultCode)) (pending .begin 5 [0x00#8, 0xAF#8] .fail) = some (true, .bus) := by
  unfold AtStep; decide
theorem witness_FlushFramesOnTheWire : 7 < pages panel ∧ 0 < pages panel := by decide
theorem witness_FlushCompletes :
    Ready { offer 0x06#128 (lit tiny) with answers := List.replicate (2 * pages tiny) .ok } 0x06#128 [] ∧
      decodeRequest 0x06#128 = .ok .flush ∧ (lit tiny).frame = [] ∧ awaiting (lit tiny) = false ∧
      (lit tiny).lc = .displayOn := by
  unfold Ready; decide
theorem witness_FlushKeepsTheFramebuffer : (atStep .flush 1).seq = .running .flush 1 ∧
    field (·.emit.length) (atStep .flush 1) = some 5 := by decide
theorem witness_InitFramesCarryTheStream : panel.initFraming = [5, 4, 1, 4, 4, 2, 6] ∧ panel.wellFormed = true ∧
    { panel with initFraming := [4, 1, 4, 1, 4, 1, 1, 1, 1, 1, 1, 6] }.wellFormed = true := by decide
theorem witness_MultiplexOperandIsHeightMinusOne : 1 ≤ { panel with height := 1 }.height ∧
    { panel with height := 128 }.height ≤ 128 ∧ panel.height = 64 := by decide
/-- One unanswered frame, and each thing the transport can say. -/
theorem witness_AnswerDecidesTheSend (a : Answer) :
    AtStep (pending .flush 1 [0x40#8, 0#8, 0#8, 0#8, 0#8] a) .flush 1 ∧
      sendFrame (pending .flush 1 [0x40#8, 0#8, 0#8, 0#8, 0#8] a) .flush 1 = some (flushFrame tiny [] 1) ∧
      (pending .flush 1 [0x40#8, 0#8, 0#8, 0#8, 0#8] a).trace =
        [] ++ [⟨0x3C#8, 7, [0x40#8, 0#8, 0#8, 0#8, 0#8], .pending⟩] ∧
      transportSays (pending .flush 1 [0x40#8, 0#8, 0#8, 0#8, 0#8] a) = a ∧ 1 + 1 < stepCount tiny .flush := by
  cases a <;> unfold AtStep <;> decide
/-- The last frame of FLUSH, the last of BEGIN, and BEGIN's last init frame. -/
theorem witness_AnswerDecidesTheSend_last : 3 + 1 = stepCount tiny .flush ∧ 9 + 1 = stepCount tiny .begin ∧
    AtStep (pending .begin 9 [0x40#8, 0#8] .ok) .begin 9 ∧
    sendFrame (pending .begin 9 [0x40#8, 0#8] .ok) .begin 9 = some (flushFrame tiny [] 3) ∧
    5 + 1 = flushBase tiny := by
  unfold AtStep; decide
theorem witness_TraceGrowsOneFrameAtATime :
    field (·.trace.length) { atStep .flush 0 with frame := [0x00#8, 0xB0#8, 0x02#8, 0x10#8] } = some 1 ∧
    field (fun t => t.trace.map (·.answer)) (pending .flush 0 [0x00#8, 0xB0#8] .ok) = some [.ok] ∧
    field (·.trace) (atStep .flush 0) = some [] := by decide
theorem witness_StepKeepsFramesWellFormed :
    FramerInv { atStep .flush 0 with
        frame := [0x00#8, 0xB0#8], emit := [⟨.colLow, 0x02#8⟩, ⟨.colHigh, 0x10#8⟩] } ∧
      TraceInv (pending .flush 0 [0x00#8, 0xB0#8] .ok) ∧
      field (·.frame) { atStep .flush 0 with
        frame := [0x00#8, 0xB0#8], emit := [⟨.colLow, 0x02#8⟩, ⟨.colHigh, 0x10#8⟩] } =
          some [0x00#8, 0xB0#8, 0x02#8] := by
  refine ⟨.inr ⟨rfl, .flush, 0, flushFrame tiny [] 0, 2, rfl, rfl, by decide, rfl, rfl⟩, ⟨?_, ?_⟩, by decide⟩
  · intro e he
    rw [List.mem_singleton.mp he]
    exact ⟨rfl, rfl, _, _, rfl, .inl rfl, by decide⟩
  · intro e he
    cases he
theorem witness_IdleMeansEveryFrameAnswered : SequencerInv (pending .flush 3 [0x40#8, 0#8] .ok) ∧
    AnsweredInv (pending .flush 3 [0x40#8, 0#8] .ok) ∧
    field (fun t => (t.seq, t.responses.length, t.trace.map (·.answer))) (pending .flush 3 [0x40#8, 0#8] .ok) =
      some (.idle, 1, [.ok]) := by
  refine ⟨⟨by decide, rfl⟩, ⟨fun e he => (by cases he), fun h => (by cases h)⟩, by decide⟩
/-- An entry already answered before the pending one: the first clause of AnsweredInv is not empty. -/
theorem witness_IdleMeansEveryFrameAnswered_earlier :
    AnsweredInv { atStep .flush 3 with
      trace := [⟨0x3C#8, 7, [0x40#8, 0#8], .ok⟩, ⟨0x3C#8, 7, [0x40#8, 0#8], .pending⟩] } := by
  refine ⟨fun e he => ?_, fun h => (by cases h)⟩
  rw [List.mem_singleton.mp he]
  decide
theorem witness_StepKeepsMemoriesCanonical : MemoryInv (offer 0x03#128 { lit panel with fb := [(133, 0x04#8)] }) ∧
    (got (step (offer 0x02#128 { lit panel with fb := [(133, 0x04#8)] }))).isSome = true := by
  unfold MemoryInv; decide
theorem witness_StepKeepsControlStateConsistent :
    FaultInv { pending .begin 5 [0#8, 0#8] .ok with lc := .bufferAllocated } ∧
      BusyInv { pending .begin 5 [0#8, 0#8] .ok with lc := .bufferAllocated } ∧
      SequencerInv { pending .begin 5 [0#8, 0#8] .ok with lc := .bufferAllocated } ∧
      BufferInv { pending .begin 5 [0#8, 0#8] .ok with lc := .bufferAllocated } ∧
      field (fun t => (t.lc, t.seq)) { pending .begin 5 [0#8, 0#8] .ok with lc := .bufferAllocated } =
        some (.handshakeSent, .running .begin 6) := by
  refine ⟨by unfold FaultInv; decide, by unfold BusyInv; decide, ?_, by unfold BufferInv; decide, by decide⟩
  exact ⟨by decide, by decide, rfl⟩
theorem witness_FaultEntryRecordsAndHalts :
    field (fun t => (t.faultValid, t.faultCode)) (pending .flush 1 [0x40#8, 0#8] .fail) = some (true, .bus) ∧
    field (fun t => (t.faultValid, t.faultCode)) (offer 0x01#128 (lit panel)) = some (true, .beginState) ∧
    field (fun t => (t.faultValid, t.faultCode)) (offer 0x08#128 (lit panel)) =
      some (true, .illegalOp) ∧
    field (fun t => (t.faultValid, t.faultCode)) (offer 0x00000005000200080000000015#128 (lit panel)) =
      some (true, .srcRange) := by decide
theorem witness_OnlyBeginWritesTheContext :
    (got (step (offer 0x03#128 (lit tiny)))).isSome = true ∧ (∀ k, (offer 0x03#128 (lit tiny)).seq ≠ .running .begin k) ∧
      ∀ q rest pm, Ready (offer 0x03#128 (lit tiny)) q rest → decodeRequest q ≠ .ok (.begin pm) := by
  refine ⟨by decide, ⟨fun k h => (by cases h), ?_⟩⟩
  intro q rest pm h
  obtain ⟨_, _, _, _, _, ho⟩ := h
  have : (0x03#128 : RequestWord) = q := by
    simp only [offer] at ho
    injection ho
  subst this
  intro hd
  exact absurd (hd.symm.trans (show decodeRequest 0x03#128 = .ok .fill by decide)) (by simp)
theorem witness_SequencerAdvancesByOne : AtStep (pending .flush 3 [0x40#8, 0#8] .ok) .flush 3 ∧
    field (·.seq) (pending .flush 3 [0x40#8, 0#8] .ok) = some .idle ∧
    field (·.seq) (pending .flush 2 [0x40#8, 0#8] .ok) = some (.running .flush 3) ∧
    field (·.seq) (pending .flush 2 [0x40#8, 0#8] .pending) = some (.running .flush 2) := by
  unfold AtStep; decide
/-- A step that offers a frame: it goes out with BUS_ADDR and BUS_CHANNEL. -/
theorem witness_BusChannelIsNeverRead :
    field (·.trace) { atStep .flush 0 with frame := [0x00#8, 0xB0#8, 0x02#8, 0x10#8] } =
      some [⟨0x3C#8, 7, [0x00#8, 0xB0#8, 0x02#8, 0x10#8], .pending⟩] := by decide
theorem witness_LaunchInputsNeverChange : (got (step (atStep .flush 0))).isSome = true := by decide

end Sys2Proof.Tests
end

section
/-! SUPPORT. The scope rules (spec/00_scope.md R9, R12): what a step does to the trace, that every operation of the
model commutes with a change of BUS_CHANNEL, and what a well-formed configuration is. -/

/-! ### What makes a configuration well-formed (R12) -/

namespace Sys2Proof

variable (c : Config)

theorem Config.boundsOk_iff :
    c.boundsOk = true ↔ 1 ≤ c.width ∧ c.width ≤ 32767 ∧ 1 ≤ c.height ∧ c.height ≤ 128 := by
  simp [Config.boundsOk, and_assoc]

theorem Config.geometryOk_iff :
    c.geometryOk = true ↔ ∃ e ∈ c.geometryTable, e.width = c.width ∧ e.height = c.height := by
  simp [Config.geometryOk]

theorem Config.contrastsOk_iff :
    c.contrastsOk = true ↔ ∀ e ∈ c.geometryTable, e.width = 128 → e.height = 64 →
      e.contrastInternal = 0xCF#8 ∧ e.contrastExternal = 0x9F#8 := by
  have entry (e : GeometryEntry) :
      (!decide (e.width = 128 ∧ e.height = 64) ||
          decide (e.contrastInternal = 0xCF#8 ∧ e.contrastExternal = 0x9F#8)) = true ↔
        (e.width = 128 → e.height = 64 → e.contrastInternal = 0xCF#8 ∧ e.contrastExternal = 0x9F#8) := by
    rw [Bool.or_eq_true, Bool.not_eq_true', decide_eq_false_iff_not, decide_eq_true_eq, ← imp_iff_not_or, and_imp]
  simp only [Config.contrastsOk, List.all_eq_true, entry]

theorem Config.colLowOk_iff : c.colLowOk = true ↔ c.colLow = 0x00#8 ∨ c.colLow = 0x02#8 := by
  simp [Config.colLowOk]

theorem Config.orientationOk_iff : c.orientationOk = true ↔ c.orientation = .identity := by
  simp [Config.orientationOk]

theorem Config.splashOk_iff :
    c.splashOk = true ↔ ∀ b ∈ c.splash, b.w ≤ 0 ∨ b.h ≤ 0 ∨
      b.srcBase + b.h.toNat * ((b.w.toNat + 7) / 8) ≤ c.srcSize := by
  simp [Config.splashOk, SplashBlit.inside, or_assoc]

theorem Config.framingOk_iff :
    c.framingOk = true ↔ (∀ n ∈ c.initFraming, 0 < n) ∧ c.initFraming.sum = 26 := by
  simp only [Config.framingOk, Bool.and_eq_true, List.all_eq_true, decide_eq_true_eq]
  rfl

end Sys2Proof

namespace Sys2Proof.Machine

/-- A step of an ill-formed configuration is refused, whatever else the state holds (R12). -/
theorem step_illFormed {s : State} (h : s.cfg.wellFormed = false) : step s = .refused .illFormedConfiguration := by
  simp [step, fetch, h]

end Sys2Proof.Machine

/-! ### What a step does to the trace (R41) -/

namespace Sys2Proof.Machine

@[simp] theorem advance_trace (op : SeqOp) (k : Nat) (s : State) : (advance op k s).trace = s.trace := by
  rcases advance_eq op k s with ⟨_, _, h⟩ | ⟨_, _, h⟩ | ⟨_, _, _, h⟩ | ⟨_, _, h⟩ <;> rw [h] <;> rfl

@[simp] theorem beginAllocate_trace (s : State) : (beginAllocate s).trace = s.trace := by
  unfold beginAllocate
  split <;> simp

/-- The trace `t` leaves after one step from `s`: as it was, with its pending entry answered, or with the frame the
framer has built offered as a new pending entry (R41, R47). -/
def TraceStep (s : State) (t : List BusWrite) : Prop :=
  t = s.trace ∨
  (awaiting s = true ∧ ∃ a, a ≠ .pending ∧ t = answerLast a s.trace) ∨
  (awaiting s = false ∧ t = s.trace ++ [⟨s.cfg.busAddr, s.cfg.busChannel, s.frame, .pending⟩])

theorem sendStep_trace (op : SeqOp) (k : Nat) (f : List WireByte) (s : State) :
    TraceStep s (sendStep op k f s).trace := by
  rcases sendStep_cases op k f s with ⟨_, _, h⟩ | ⟨hw, _, h⟩ | ⟨hw, _, h⟩ | ⟨_, _, h⟩ | ⟨hw, _, h⟩ <;> rw [h]
  · exact .inl (takeAnswer_trace s)
  · exact .inr (.inl ⟨hw, .ok, by decide, by simp⟩)
  · exact .inr (.inl ⟨hw, .fail, by decide, by simp⟩)
  · exact .inl rfl
  · exact .inr (.inr ⟨hw, rfl⟩)

/-- A request leaves the trace alone (R75, R77, R84, R94). -/
theorem request_trace {i : Instr} {q : RequestWord} (hi : encode i = .request q) {s t : State}
    (h : exec i s = .next t) : t.trace = s.trace := by
  rcases request_cases hi h with ⟨_, rfl, _⟩ | ⟨_, _, _, rfl, _⟩ | ⟨_, _, rfl, _⟩ | ⟨_, _, rfl⟩ | ⟨_, _, _, rfl⟩ <;>
    simp

theorem seqStep_trace {op : SeqOp} {k : Nat} {s t : State} (h : seqStep op k s = .next t) : TraceStep s t.trace := by
  rcases seqStep_cases h with ⟨_, _, rfl⟩ | ⟨_, _, _, _, rfl, _⟩ | ⟨_, _, _, _, _, _, _, rfl, _⟩ | ⟨_, _, _, _, rfl⟩ |
    ⟨f, _, _, _, rfl⟩
  · exact .inl (beginAllocate_trace s)
  · exact .inl (advance_trace op k _)
  · exact .inl rfl
  · exact .inl (advance_trace op k _)
  · exact sendStep_trace op k f s

/-- Everything a step can do to the trace. -/
theorem step_trace {s t : State} (h : step s = .next t) : TraceStep s t.trace := by
  obtain ⟨_, _, hbyte | ⟨_, op, k, _, hseq⟩ | ⟨_, _, _, rfl⟩ | ⟨_, _, _, q, rest, _, hreq⟩⟩ := step_cases h
  · obtain ⟨b, rest, _, ⟨_, _, rfl⟩ | ⟨_, rfl⟩⟩ := hbyte <;> exact .inl rfl
  · exact seqStep_trace hseq
  · exact .inl rfl
  · rcases hreq with ⟨i, hd, hx⟩ | ⟨_, _, rfl⟩
    · obtain ⟨r, hr⟩ := decodeRequest_request hd
      have htrace := request_trace hr hx
      exact .inl htrace
    · exact .inl rfl

theorem answerLast_length (a : Answer) (l : List BusWrite) : (answerLast a l).length = l.length := by
  rcases answerLast_eq a l with ⟨h, _⟩ | ⟨i, e, rfl, h⟩ <;> simp [h]

/-- A trace one entry longer is the offer of the frame the framer has built: neither of the other two things a step does
to the trace makes it longer. -/
theorem TraceStep.eq_of_append {s : State} {e : BusWrite} (h : TraceStep s (s.trace ++ [e])) :
    e = ⟨s.cfg.busAddr, s.cfg.busChannel, s.frame, .pending⟩ := by
  rcases h with h | ⟨_, a, _, h⟩ | ⟨_, h⟩
  · simp at h
  · have := congrArg List.length h
    simp [answerLast_length] at this
  · simpa using h

end Sys2Proof.Machine

/-! ### Another BUS_CHANNEL (R9)

`withChannel n` commutes with every operation of the model, from the named updates up to `step`. -/

namespace Sys2Proof.Machine

/-- An outcome with its next state changed by `f`; a fault or a refusal stays as it is. -/
def mapNext (f : State → State) : Host.Outcome State Fault Refusal → Host.Outcome State Fault Refusal
  | .next t => .next (f t)
  | .fault r => .fault r
  | .refused r => .refused r

@[simp] theorem mapNext_next (f : State → State) (t : State) : mapNext f (.next t) = .next (f t) := rfl

variable (n : Nat) (s : State)

/-! The fields `withChannel` leaves alone. -/
@[simp] theorem withChannel_lc : (withChannel n s).lc = s.lc := rfl
@[simp] theorem withChannel_fb : (withChannel n s).fb = s.fb := rfl
@[simp] theorem withChannel_contrast : (withChannel n s).contrast = s.contrast := rfl
@[simp] theorem withChannel_pwr : (withChannel n s).pwr = s.pwr := rfl
@[simp] theorem withChannel_seq : (withChannel n s).seq = s.seq := rfl
@[simp] theorem withChannel_faultValid : (withChannel n s).faultValid = s.faultValid := rfl
@[simp] theorem withChannel_busy : (withChannel n s).busy = s.busy := rfl
@[simp] theorem withChannel_offered : (withChannel n s).offered = s.offered := rfl
@[simp] theorem withChannel_emit : (withChannel n s).emit = s.emit := rfl
@[simp] theorem withChannel_frame : (withChannel n s).frame = s.frame := rfl

/-! What is computed from a configuration does not read the channel. -/
@[simp] theorem wellFormed_withChannel : (withChannel n s).cfg.wellFormed = s.cfg.wellFormed := rfl
@[simp] theorem geometry_withChannel : geometry (withChannel n s).cfg = geometry s.cfg := rfl
@[simp] theorem flushBase_withChannel : flushBase (withChannel n s).cfg = flushBase s.cfg := rfl
@[simp] theorem stepCount_withChannel (op : SeqOp) : stepCount (withChannel n s).cfg op = stepCount s.cfg op := by
  cases op <;> rfl
@[simp] theorem stepKind_withChannel (op : SeqOp) (k : Nat) :
    stepKind (withChannel n s).cfg op k = stepKind s.cfg op k := by
  cases op <;> rfl
@[simp] theorem initFrames_withChannel (g : GeometryEntry) (pwr : PowerMode) (contrast : Byte) :
    initFrames (withChannel n s).cfg g pwr contrast = initFrames s.cfg g pwr contrast := by
  cases pwr <;> rfl
@[simp] theorem flushFrame_withChannel (fb : Memory) (m : Nat) :
    flushFrame (withChannel n s).cfg fb m = flushFrame s.cfg fb m := rfl
@[simp] theorem allocResult_withChannel : allocResult (withChannel n s) = allocResult s := rfl
@[simp] theorem transportSays_withChannel : transportSays (withChannel n s) = transportSays s := rfl

/-- Whether the block waits is read off the last entry's answer alone. -/
@[simp] theorem awaiting_withChannel : awaiting (withChannel n s) = awaiting s := by
  unfold awaiting
  rw [withChannel, List.getLast?_map]
  cases s.trace.getLast? <;> rfl

/-! The blit reads the configuration's sizes and the source memory only. -/
theorem blitCols_withChannel (x y : Int) (row : Nat) (color : Color) (m i : Nat) (fb : Memory) :
    blitCols (withChannel n s) x y row color m i fb = blitCols s x y row color m i fb := by
  induction m generalizing i fb with
  | zero => rfl
  | succ m ih =>
    have hread : srcRead (withChannel n s) (row + i / 8) = srcRead s (row + i / 8) := rfl
    simp only [blitCols, hread, ih]
    rfl

theorem blitRows_withChannel (x y : Int) (src w : Nat) (color : Color) (m j : Nat) (fb : Memory) :
    blitRows (withChannel n s) x y src w color m j fb = blitRows s x y src w color m j fb := by
  induction m generalizing j fb with
  | zero => rfl
  | succ m ih => simp only [blitRows, blitCols_withChannel, ih]

@[simp] theorem blit_withChannel (x y : Int) (src : Nat) (w h : Int) (color : Color) :
    blit (withChannel n s) x y src w h color = blit s x y src w h color := by
  simp only [blit, blitRows_withChannel, withChannel_fb]

/-! The named updates. -/
theorem raiseFault_withChannel (c : FaultCode) : raiseFault c (withChannel n s) = withChannel n (raiseFault c s) := rfl

theorem takeAlloc_withChannel : takeAlloc (withChannel n s) = withChannel n (takeAlloc s) := by
  unfold takeAlloc
  rw [show (withChannel n s).allocs = s.allocs from rfl]
  cases s.allocs <;> rfl

theorem takeAnswer_withChannel : takeAnswer (withChannel n s) = withChannel n (takeAnswer s) := by
  unfold takeAnswer
  rw [show (withChannel n s).answers = s.answers from rfl]
  cases s.answers <;> rfl

/-- The one place the channel is used: the frame goes out with the other channel. -/
theorem busOffer_withChannel : busOffer (withChannel n s) = withChannel n (busOffer s) := by
  simp [busOffer, withChannel]

theorem busAnswer_withChannel (a : Answer) : busAnswer a (withChannel n s) = withChannel n (busAnswer a s) := by
  have htrace : answerLast a (s.trace.map fun e => { e with channel := n }) =
      (answerLast a s.trace).map fun e => { e with channel := n } := by
    rcases List.eq_nil_or_concat s.trace with h | ⟨l, e, h⟩ <;> simp [h, answerLast]
  simp [busAnswer, withChannel, htrace]

theorem beginAllocate_withChannel : beginAllocate (withChannel n s) = withChannel n (beginAllocate s) := by
  simp only [beginAllocate, allocResult_withChannel, takeAlloc_withChannel]
  split <;> rfl

/-! The sequencer. -/
theorem advance_withChannel (op : SeqOp) (k : Nat) :
    advance op k (withChannel n s) = withChannel n (advance op k s) := by
  unfold advance
  rw [flushBase_withChannel, stepCount_withChannel]
  split_ifs <;> cases op <;> rfl

theorem pollTransport_withChannel (op : SeqOp) (k : Nat) :
    pollTransport op k (withChannel n s) = withChannel n (pollTransport op k s) := by
  simp only [pollTransport, transportSays_withChannel, takeAnswer_withChannel, busAnswer_withChannel,
    advance_withChannel, raiseFault_withChannel]
  cases transportSays s <;> rfl

theorem sendStep_withChannel (op : SeqOp) (k : Nat) (f : List WireByte) :
    sendStep op k f (withChannel n s) = withChannel n (sendStep op k f s) := by
  unfold sendStep
  rw [awaiting_withChannel, withChannel_frame, pollTransport_withChannel, busOffer_withChannel]
  split_ifs <;> rfl

theorem seqStep_withChannel (op : SeqOp) (k : Nat) :
    seqStep op k (withChannel n s) = mapNext (withChannel n) (seqStep op k s) := by
  unfold seqStep
  rw [stepKind_withChannel]
  cases stepKind s.cfg op k with
  | allocate => simp [beginAllocate_withChannel]
  | clear =>
    exact congrArg Host.Outcome.next
      (advance_withChannel n { s with fb := Memory.fill (nFb s.cfg) 0x00#8 s.fb } op k)
  | splash b =>
    simp only [blit_withChannel]
    cases blit s b.x b.y b.srcBase b.w b.h .set with
    | done fb => exact congrArg Host.Outcome.next (advance_withChannel n { s with fb := fb } op k)
    | srcRange fb => rfl
  | contrast =>
    simp only [geometry_withChannel]
    cases geometry s.cfg with
    | none => rfl
    | some g => exact congrArg Host.Outcome.next (advance_withChannel n { s with contrast := contrastFor g s.pwr } op k)
  | initFrame j =>
    simp only [geometry_withChannel]
    cases geometry s.cfg with
    | none => rfl
    | some g => simp [sendStep_withChannel]
  | flushFrame m => simp [sendStep_withChannel]
  | off => rfl

/-! The instructions. -/
theorem requireReady_withChannel (t : State) :
    requireReady (withChannel n s) (withChannel n t) = mapNext (withChannel n) (requireReady s t) := by
  unfold requireReady
  rw [withChannel_lc]
  split <;> rfl

theorem execBegin_withChannel (pm : PowerMode) :
    execBegin pm (withChannel n s) = mapNext (withChannel n) (execBegin pm s) := by
  unfold execBegin
  rw [withChannel_lc]
  split
  · exact congrArg _ (beginAllocate_withChannel n { s with pwr := pm })
  · rfl

theorem execWritePixel_withChannel (x y : BitVec 16) (color : ColorCode) :
    execWritePixel x y color (withChannel n s) = mapNext (withChannel n) (execWritePixel x y color s) := by
  cases color with
  | illegal => rfl
  | legal c =>
    exact requireReady_withChannel n s (respond (okWord false)
      { s with fb := writePixelCore s.cfg s.orient s.fb (coord x) (coord y) c })

theorem execDrawBitmap_withChannel (x y w h : BitVec 16) (src : BitVec 32) (color : ColorCode) :
    execDrawBitmap x y w h src color (withChannel n s) =
      mapNext (withChannel n) (execDrawBitmap x y w h src color s) := by
  cases color with
  | illegal => rfl
  | legal c =>
    simp only [execDrawBitmap, blit_withChannel]
    rw [← requireReady_withChannel]
    cases blit s (coord x) (coord y) (srcAddress src) (coord w) (coord h) c <;> rfl

/-- An instruction does the same with another channel: a request by its own rule, a wire byte because it changes the
frame alone. -/
theorem exec_withChannel (i : Instr) : exec i (withChannel n s) = mapNext (withChannel n) (exec i s) := by
  cases i with
  | begin pm => exact execBegin_withChannel n s pm
  | clear =>
    exact requireReady_withChannel n s (respond (okWord false) { s with fb := Memory.fill (nFb s.cfg) 0x00#8 s.fb })
  | fill =>
    exact requireReady_withChannel n s (respond (okWord false) { s with fb := Memory.fill (nFb s.cfg) 0xFF#8 s.fb })
  | writePixel x y color => exact execWritePixel_withChannel n s x y color
  | drawBitmap x y w h src color => exact execDrawBitmap_withChannel n s x y w h src color
  | flush => exact requireReady_withChannel n s { s with seq := .running .flush 0 }
  | readPixel x y =>
    exact requireReady_withChannel n s
      (respond (okWord (readPixelCore s.cfg s.orient s.fb (coord x) (coord y))) s)
  | _ => rfl

/-! The step. -/

/-- What a fetch says, with another channel in the states it holds. -/
def Fetch.withChannel (n : Nat) : Fetch → Fetch
  | .run i t => .run i (Machine.withChannel n t)
  | .done o => .done (mapNext (Machine.withChannel n) o)

theorem fetchByte_withChannel (b : WireByte) :
    fetchByte b (withChannel n s) = (fetchByte b s).withChannel n := by
  unfold fetchByte
  cases decodeWire b <;> rfl

theorem acceptRequest_withChannel (q : RequestWord) :
    acceptRequest q (withChannel n s) = (acceptRequest q s).withChannel n := by
  unfold acceptRequest
  cases decodeRequest q <;> rfl

theorem fetch_withChannel : fetch (withChannel n s) = (fetch s).withChannel n := by
  unfold fetch
  rw [wellFormed_withChannel, withChannel_faultValid, withChannel_emit, withChannel_seq, withChannel_busy,
    withChannel_offered]
  split
  · rfl
  split
  · rfl
  cases s.emit with
  | cons b rest => exact fetchByte_withChannel n { s with emit := rest } b
  | nil =>
    cases s.seq with
    | running op k => exact congrArg Fetch.done (seqStep_withChannel n s op k)
    | idle =>
      cases s.busy with
      | true => rfl
      | false =>
        cases s.offered with
        | nil => rfl
        | cons q rest =>
          exact acceptRequest_withChannel n { s with offered := rest, emit := [], seq := .idle, busy := false } q

/-- With another channel, a step does the same but for the channel passed along (R9). -/
theorem step_withChannel : step (withChannel n s) = mapNext (withChannel n) (step s) := by
  unfold step
  rw [fetch_withChannel]
  cases fetch s with
  | run i t => exact exec_withChannel n t i
  | done o => rfl

end Sys2Proof.Machine

/-! ### The statements -/

open Sys2Proof Sys2Proof.Machine

/-- Settles O11: the seven checks of `Config.wellFormed`, each by its own equivalence, and the refusal. -/
theorem illFormedConfigurationIsRefused : Obligations.IllFormedConfigurationIsRefused := by
  intro s
  refine ⟨?_, step_illFormed⟩
  simp only [Config.wellFormed, Bool.and_eq_true, Config.boundsOk_iff, Config.geometryOk_iff, Config.contrastsOk_iff,
    Config.colLowOk_iff, Config.orientationOk_iff, Config.splashOk_iff, Config.framingOk_iff, and_assoc]

/-- Settles O53: a step that makes the trace longer is an offer, by what a step can do to the trace; and `step` commutes
with the change of the channel, because every operation it calls does. -/
theorem busChannelIsNeverRead : Obligations.BusChannelIsNeverRead := by
  constructor
  · intro s t e hstep htrace
    have hoffer := step_trace hstep
    rw [htrace] at hoffer
    rw [hoffer.eq_of_append]
    exact ⟨rfl, rfl⟩
  · intro s n
    rw [step_withChannel]
    cases step s <;> rfl

end

section
/-! SUPPORT. The control state (spec/10_state.md R24 to R30): what a step does to LC, FB_VALID, SEQ, BUSY and FAULT, the
joint invariant of these registers, and what keeps the context LC, FB_VALID, CONTRAST and PWR. -/

namespace Sys2Proof.Machine

variable {s t u : State} {op : SeqOp} {k : Nat}

/-! ### What a step of an operation does to the control registers -/

/-- The two states agree in the configuration and in every control register: LC, FB_VALID, SEQ, FAULT and BUSY. A field
not given is one that holds by computation, so `{}` stands for an update that names no control register. -/
structure SameControl (s u : State) : Prop where
  cfg : u.cfg = s.cfg := by rfl
  lc : u.lc = s.lc := by rfl
  fbValid : u.fbValid = s.fbValid := by rfl
  seq : u.seq = s.seq := by rfl
  faultValid : u.faultValid = s.faultValid := by rfl
  faultCode : u.faultCode = s.faultCode := by rfl
  busy : u.busy = s.busy := by rfl

theorem sameControl_takeAnswer (s : State) : SameControl s (takeAnswer s) := by
  rw [takeAnswer_eq]
  exact {}

theorem beginAllocate_success (h : allocResult s = true) :
    beginAllocate s = { takeAlloc s with fbValid := true, lc := .bufferAllocated, seq := .running .begin 1 } := by
  simp [beginAllocate, h]

theorem beginAllocate_failure (h : allocResult s = false) :
    beginAllocate s = respond (okWord false) { takeAlloc s with lc := .failed, seq := .idle } := by
  simp [beginAllocate, h]

/-- As far as control goes, a step of an operation is BEGIN's allocation, a fault, the completion of the step, or no
change at all (R28). -/
theorem seqStep_control (h : seqStep op k s = .next t) :
    (op = .begin ∧ k = 0 ∧ t = beginAllocate s) ∨
    (∃ c u, c ≠ .none ∧ SameControl s u ∧ t = raiseFault c u) ∨
    (∃ u, SameControl s u ∧ t = advance op k u) ∨
    SameControl s t := by
  rcases seqStep_cases h with halloc | ⟨_, _, _, fb, rfl, _⟩ | ⟨_, _, _, _, _, fb, _, rfl, _⟩ | ⟨_, _, g, _, rfl⟩ |
    ⟨f, _, _, _, rfl⟩
  · exact .inl halloc
  · exact .inr (.inr (.inl ⟨_, {}, rfl⟩))
  · exact .inr (.inl ⟨.srcRange, _, by decide, {}, rfl⟩)
  · exact .inr (.inr (.inl ⟨_, {}, rfl⟩))
  · have hask := sameControl_takeAnswer s
    rcases sendStep_cases op k f s with ⟨_, _, h⟩ | ⟨_, _, h⟩ | ⟨_, _, h⟩ | ⟨_, _, h⟩ | ⟨_, _, h⟩ <;> rw [h]
    · exact .inr (.inr (.inr hask))
    · exact .inr (.inr (.inl ⟨busAnswer .ok (takeAnswer s), { hask with }, rfl⟩))
    · exact .inr (.inl ⟨.bus, busAnswer .fail (takeAnswer s), by decide, { hask with }, rfl⟩)
    · exact .inr (.inr (.inr {}))
    · exact .inr (.inr (.inr {}))

/-! ### The joint invariant -/

/-- The four control invariants together. -/
structure ControlInv (s : State) : Prop where
  fault : FaultInv s
  busy : BusyInv s
  sequencer : SequencerInv s
  buffer : BufferInv s

theorem controlInv_iff : ControlInv s ↔ FaultInv s ∧ BusyInv s ∧ SequencerInv s ∧ BufferInv s :=
  ⟨fun ⟨hf, hb, hs, hv⟩ => ⟨hf, hb, hs, hv⟩, fun ⟨hf, hb, hs, hv⟩ => ⟨hf, hb, hs, hv⟩⟩

/-- The control invariants read the control registers alone. -/
theorem ControlInv.congr (h : ControlInv s) (e : SameControl s t) : ControlInv t := by
  obtain ⟨hfault, hbusy, hseq, hbuf⟩ := h
  constructor
  · rwa [FaultInv, e.faultValid, e.faultCode, e.seq]
  · rwa [BusyInv, e.busy, e.seq]
  · rwa [SequencerInv, e.seq, e.cfg, e.lc, e.faultValid]
  · rwa [BufferInv, e.fbValid, e.lc]

theorem FaultInv.faultCode_eq_none (h : FaultInv s) (hf : s.faultValid = false) : s.faultCode = .none := by
  simpa [FaultInv, hf] using h

theorem faultInv_of_clear (hf : s.faultValid = false) (hcode : s.faultCode = .none) : FaultInv s := by
  simp [FaultInv, hf, hcode]

theorem sequencerInv_begin (h : s.seq = .running .begin k) : SequencerInv s ↔
    1 ≤ k ∧ k < stepCount s.cfg .begin ∧
      s.lc = (if k < flushBase s.cfg then .bufferAllocated else .handshakeSent) := by
  simp only [SequencerInv, h]

theorem sequencerInv_flush (h : s.seq = .running .flush k) : SequencerInv s ↔
    k < stepCount s.cfg .flush ∧ s.lc = .displayOn := by
  simp only [SequencerInv, h]

/-- A recorded fault excuses every lifecycle state. -/
theorem sequencerInv_faulted (hs : s.seq = .idle) (hf : s.faultValid = true) : SequencerInv s := by
  simp only [SequencerInv, hs, hf]
  cases s.lc <;> simp

/-- An operation in progress has recorded no fault. -/
theorem FaultInv.faultValid_of_running (h : FaultInv s) (hs : s.seq = .running op k) : s.faultValid = false := by
  obtain ⟨_, hidle⟩ := h
  cases hf : s.faultValid with
  | false => rfl
  | true => exact absurd (hidle hf) (by simp [hs])

/-- A running BEGIN has its buffer. -/
theorem BufferInv.fbValid_of_begin (h : BufferInv s) (hseq : SequencerInv s) (hs : s.seq = .running .begin k) :
    s.fbValid = true := by
  obtain ⟨_, _, hlc⟩ := (sequencerInv_begin hs).mp hseq
  refine h.mpr ?_
  rw [hlc]
  split <;> simp

/-- A fault entry (R103) needs nothing of the state but that FB_VALID fits LC. -/
theorem controlInv_raiseFault {c : FaultCode} (hc : c ≠ .none) (hbuf : BufferInv s) : ControlInv (raiseFault c s) where
  fault := by simp [FaultInv, hc]
  busy := by simp [BusyInv]
  sequencer := sequencerInv_faulted rfl rfl
  buffer := hbuf

/-- BEGIN's allocation (R85), from a busy block that is still uninitialized. -/
theorem controlInv_beginAllocate (hlc : s.lc = .uninitialized) (hbusy : s.busy = true) (hf : s.faultValid = false)
    (hcode : s.faultCode = .none) (hbuf : BufferInv s) : ControlInv (beginAllocate s) := by
  have hvalid : s.fbValid = false := by simpa [BufferInv, hlc] using hbuf
  cases ha : allocResult s with
  | true =>
    rw [beginAllocate_success ha]
    refine ⟨by simp [FaultInv, hf, hcode], by simp [BusyInv, hbusy], (sequencerInv_begin rfl).mpr ?_,
      by simp [BufferInv]⟩
    have hbase : 1 < flushBase s.cfg := by unfold flushBase initBase; omega
    have hcount : 1 < stepCount s.cfg .begin := Nat.lt_add_right _ hbase
    simp [hbase, hcount]
  | false =>
    rw [beginAllocate_failure ha]
    exact ⟨by simp [FaultInv, hf, hcode], by simp [BusyInv], by simp [SequencerInv], by simp [BufferInv, hvalid]⟩

/-- The completion of a step in progress: SEQ moves on inside its list, and LC with it (R28, R89). -/
theorem ControlInv.advance (h : ControlInv s) (hs : s.seq = .running op k) : ControlInv (advance op k s) := by
  obtain ⟨hfault, hbusy, hseq, hbuf⟩ := h
  have hf := hfault.faultValid_of_running hs
  have hcode := hfault.faultCode_eq_none hf
  have hset : s.busy = true := hbusy.mpr (by simp [hs])
  rcases advance_eq op k s with ⟨_, rfl, h⟩ | ⟨_, rfl, h⟩ | ⟨hlast, rfl, hbase, h⟩ | ⟨hlast, hbase, h⟩ <;> rw [h]
  · have hvalid := hbuf.fbValid_of_begin hseq hs
    exact ⟨faultInv_of_clear hf hcode, by simp [BusyInv], by simp [SequencerInv], by simp [BufferInv, hvalid]⟩
  · obtain ⟨_, hlc⟩ := (sequencerInv_flush hs).mp hseq
    exact ⟨faultInv_of_clear hf hcode, by simp [BusyInv], by simp [SequencerInv, hlc], hbuf⟩
  · obtain ⟨_, hlt, _⟩ := (sequencerInv_begin hs).mp hseq
    have hvalid := hbuf.fbValid_of_begin hseq hs
    refine ⟨faultInv_of_clear hf hcode, by simp [BusyInv, hset], (sequencerInv_begin rfl).mpr ?_,
      by simp [BufferInv, hvalid]⟩
    exact ⟨by omega, by simp only; omega, by simp [hbase]⟩
  · refine ⟨faultInv_of_clear hf hcode, by simp [BusyInv, hset], ?_, hbuf⟩
    cases op with
    | begin =>
      obtain ⟨_, hlt, hlc⟩ := (sequencerInv_begin hs).mp hseq
      have hside : k + 1 < flushBase s.cfg ↔ k < flushBase s.cfg := by simp only [true_and] at hbase; omega
      exact (sequencerInv_begin rfl).mpr ⟨by omega, by simp only; omega, by simp only [hside, hlc]⟩
    | flush =>
      obtain ⟨hlt, hlc⟩ := (sequencerInv_flush hs).mp hseq
      exact (sequencerInv_flush rfl).mpr ⟨by simp only; omega, hlc⟩

/-- Every step of an operation keeps the control invariants. -/
theorem ControlInv.seqStep (h : ControlInv s) (hs : s.seq = .running op k) (hstep : seqStep op k s = .next t) :
    ControlInv t := by
  rcases seqStep_control hstep with ⟨rfl, rfl, _⟩ | ⟨c, u, hc, hsame, rfl⟩ | ⟨u, hsame, rfl⟩ | hsame
  · obtain ⟨hpos, _⟩ := (sequencerInv_begin hs).mp h.sequencer
    omega
  · exact controlInv_raiseFault hc (h.congr hsame).buffer
  · exact (h.congr hsame).advance (hsame.seq.trans hs)
  · exact h.congr hsame

/-- Every request the block accepts keeps the control invariants: it faults, answers at once, or starts BEGIN or
FLUSH. -/
theorem ControlInv.request (h : ControlInv s) (hwf : s.cfg.wellFormed = true) (hf : s.faultValid = false)
    (hb : s.busy = false) {i : Instr} {q : RequestWord} (hi : encode i = .request q)
    {rest : List RequestWord} (hx : exec i { s with offered := rest, busy := true } = .next t) : ControlInv t := by
  have hcode := h.fault.faultCode_eq_none hf
  rcases request_cases hi hx with ⟨c, rfl, hc⟩ | ⟨_, fb, v, rfl, _⟩ | ⟨_, fb, rfl, _⟩ | ⟨hlc, _, rfl⟩ |
    ⟨hlc, pm, _, rfl⟩
  · exact controlInv_raiseFault (by rcases hc with rfl | ⟨rfl, _⟩ | ⟨rfl, _⟩ <;> decide) h.buffer
  · exact h.congr { busy := hb.symm }
  · exact controlInv_raiseFault (by decide) h.buffer
  · have hpages : 0 < 2 * pages s.cfg := Nat.mul_pos two_pos (pages_pos hwf)
    exact ⟨faultInv_of_clear hf hcode, by simp [BusyInv], (sequencerInv_flush rfl).mpr ⟨hpages, hlc⟩, h.buffer⟩
  · exact controlInv_beginAllocate hlc rfl hf hcode h.buffer

/-- Every step keeps the control invariants. -/
theorem ControlInv.step (h : ControlInv s) (hstep : step s = .next t) : ControlInv t := by
  obtain ⟨hwf, hf, hbyte | ⟨_, op, k, hs, hseq⟩ | ⟨_, _, _, rfl⟩ | ⟨_, _, hb, q, rest, _, hreq⟩⟩ := step_cases hstep
  · obtain ⟨b, rest, _, ⟨_, _, rfl⟩ | ⟨_, rfl⟩⟩ := hbyte <;> exact h.congr {}
  · exact h.seqStep hs hseq
  · exact h
  · rcases hreq with ⟨i, hd, hx⟩ | ⟨_, _, rfl⟩
    · obtain ⟨r, hr⟩ := decodeRequest_request hd
      exact h.request hwf hf hb hr hx
    · exact controlInv_raiseFault (by decide) h.buffer

/-! ### The context LC, FB_VALID, CONTRAST and PWR -/

/-- The two states agree in the context: LC, FB_VALID, CONTRAST and PWR (R24 to R27). -/
def SameContext (s t : State) : Prop :=
  t.lc = s.lc ∧ t.fbValid = s.fbValid ∧ t.contrast = s.contrast ∧ t.pwr = s.pwr

theorem SameContext.refl (s : State) : SameContext s s := ⟨rfl, rfl, rfl, rfl⟩

/-- The completion of a step of FLUSH writes SEQ, BUSY and the responses alone. -/
theorem SameContext.advance_flush (h : SameContext s u) : SameContext s (advance .flush k u) := by
  rcases advance_eq .flush k u with ⟨_, ⟨⟩, _⟩ | ⟨_, _, h'⟩ | ⟨_, ⟨⟩, _⟩ | ⟨_, _, h'⟩ <;> rw [h'] <;> exact h

theorem sameContext_takeAnswer (s : State) : SameContext s (takeAnswer s) := by
  rw [takeAnswer_eq]
  exact .refl s

/-- Every step of FLUSH is a `Send`, and a `Send` keeps the context (R82, R95). -/
theorem sameContext_seqStep_flush (h : seqStep .flush k s = .next t) : SameContext s t := by
  rcases seqStep_cases h with ⟨⟨⟩, _⟩ | ⟨⟨⟩, _⟩ | ⟨⟨⟩, _⟩ | ⟨⟨⟩, _⟩ | ⟨f, _, _, _, rfl⟩
  have hask := sameContext_takeAnswer s
  rcases sendStep_cases .flush k f s with ⟨_, _, h⟩ | ⟨_, _, h⟩ | ⟨_, _, h⟩ | ⟨_, _, h⟩ | ⟨_, _, h⟩ <;> rw [h]
  · exact hask
  · exact SameContext.advance_flush (u := busAnswer .ok (takeAnswer s)) hask
  · exact hask
  · exact .refl s
  · exact .refl s

/-- Every request but BEGIN keeps the context. -/
theorem sameContext_request {i : Instr} {q : RequestWord} (hi : encode i = .request q) (hbegin : ∀ pm, i ≠ .begin pm)
    (h : exec i s = .next t) : SameContext s t := by
  rcases request_cases hi h with ⟨c, rfl, _⟩ | ⟨_, fb, v, rfl, _⟩ | ⟨_, fb, rfl, _⟩ | ⟨_, _, rfl⟩ | ⟨_, pm, hpm, _⟩
  · exact .refl s
  · exact .refl s
  · exact .refl s
  · exact .refl s
  · exact absurd hpm (hbegin pm)

end Sys2Proof.Machine

/-! ### The statements -/

open Sys2Proof Sys2Proof.Machine

/-- Settles O45: the four invariants are kept together (`ControlInv.step`). -/
theorem stepKeepsControlStateConsistent : Obligations.StepKeepsControlStateConsistent := by
  intro s t hinv hstep
  exact controlInv_iff.mp ((controlInv_iff.mpr hinv).step hstep)

/-- Settles O49: by everything a step can do, where the operation in progress can only be FLUSH and the request accepted
is not BEGIN. -/
theorem onlyBeginWritesTheContext : Obligations.OnlyBeginWritesTheContext := by
  intro s t hstep hrun hacc
  change SameContext s t
  obtain ⟨hwf, hf, hbyte | ⟨_, op, k, hs, hseq⟩ | ⟨_, _, _, rfl⟩ | ⟨he, hs, hb, q, rest, ho, hreq⟩⟩ := step_cases hstep
  · obtain ⟨b, rest, _, ⟨_, _, rfl⟩ | ⟨_, rfl⟩⟩ := hbyte <;> exact .refl s
  · cases op with
    | begin => exact absurd hs (hrun k)
    | flush => exact sameContext_seqStep_flush hseq
  · exact .refl _
  · rcases hreq with ⟨i, hd, hx⟩ | ⟨_, _, rfl⟩
    · obtain ⟨r, hr⟩ := decodeRequest_request hd
      have hbegin : ∀ pm, i ≠ .begin pm := by
        rintro pm rfl
        exact hacc q rest pm ⟨hwf, hf, he, hs, hb, ho⟩ hd
      have hkeep := sameContext_request hr hbegin hx
      exact hkeep
    · exact .refl s

/-- Settles O51: a step of an operation allocates, faults, completes or leaves SEQ where it is (`seqStep_control`). -/
theorem sequencerAdvancesByOne : Obligations.SequencerAdvancesByOne := by
  rintro s t op k ⟨hwf, hf, he, hs⟩ hstep
  rw [step_running hwf hf he hs] at hstep
  rcases seqStep_control hstep with ⟨rfl, rfl, rfl⟩ | ⟨c, u, _, _, rfl⟩ | ⟨u, hsame, rfl⟩ | hsame
  · cases ha : allocResult s with
    | true => exact .inr (.inl (by rw [beginAllocate_success ha]))
    | false => exact .inr (.inr ⟨by rw [beginAllocate_failure ha]; rfl, .inr (.inr ⟨rfl, rfl⟩)⟩)
  · exact .inr (.inr ⟨rfl, .inr (.inl rfl)⟩)
  · rw [← hsame.cfg]
    rcases advance_eq op k u with ⟨hlast, _, h⟩ | ⟨hlast, _, h⟩ | ⟨_, _, _, h⟩ | ⟨_, _, h⟩ <;> rw [h]
    · exact .inr (.inr ⟨rfl, .inl hlast⟩)
    · exact .inr (.inr ⟨rfl, .inl hlast⟩)
    · exact .inr (.inl rfl)
    · exact .inr (.inl rfl)
  · exact .inl (hsame.seq.trans hs)

end

section
/-! SUPPORT. The memories and the trace (spec/20_memory.md): the pixel address and the pad bits (R35, R36), what a step
keeps of the memories and the launch inputs (R33, R38), and which frames of the trace have their answer (R41, R42). -/

/-! ### The pixel address (R35) and the pad bits (R36) -/

namespace Sys2Proof.Machine

variable {c : Config} {s t : State}

/-- The pixel at bit `bit` of byte `idx`: column `idx mod W`, row `8 * (idx div W) + bit`. -/
theorem pixel_of_address {idx bit : Nat} (hw : 1 ≤ c.width) (hbit : bit < 8)
    (hrow : 8 * (idx / c.width) + bit < c.height) :
    ∃ x y, InPanel c x y ∧ pixelIndex c x y = idx ∧ pixelBit y = bit := by
  have hcol : idx % c.width < c.width := Nat.mod_lt _ hw
  have hpage : (8 * (idx / c.width) + bit) / 8 = idx / c.width := by omega
  refine ⟨(idx % c.width : Nat), (8 * (idx / c.width) + bit : Nat), ⟨by omega, by omega, by omega, by omega⟩, ?_, ?_⟩
  · rw [pixelIndex, Int.toNat_natCast, Int.toNat_natCast, hpage, Nat.mul_comm]
    exact Nat.mod_add_div _ _
  · rw [pixelBit, Int.toNat_natCast]
    omega

/-- The page of an in-range pixel's byte is its row divided by 8. -/
theorem pixelIndex_div {x y : Int} (h : InPanel c x y) : pixelIndex c x y / c.width = y.toNat / 8 := by
  obtain ⟨hx0, hx, _, _⟩ := h
  have hcol : x.toNat < c.width := by omega
  rw [pixelIndex, Nat.add_mul_div_right _ _ (by omega), Nat.div_eq_of_lt hcol, Nat.zero_add]

/-- The row read back from an in-range pixel's address is its own, so it is on the panel. -/
theorem address_of_pixel {x y : Int} (h : InPanel c x y) :
    8 * (pixelIndex c x y / c.width) + pixelBit y < c.height := by
  rw [pixelIndex_div h, pixelBit]
  obtain ⟨_, _, hy0, hy⟩ := h
  omega

/-- A bit no pixel maps to is not the bit of an in-range pixel. -/
theorem NoPixel.ne_address {a b : Nat} (h : NoPixel c a b) {x y : Int} :
    ¬ (inRange c x y = true ∧ a = pixelIndex c x y ∧ b = pixelBit y) := by
  rintro ⟨hr, ha, hb⟩
  obtain ⟨hx0, hx, hy0, hy⟩ := inRange_iff.mp hr
  exact h x.toNat y.toNat (by omega) (by omega) ha hb

/-- Bit `b` of byte `a`. -/
abbrev fbBit (fb : Memory) (a b : Nat) : Bool := (Memory.read fb a).getLsbD b

theorem NoPixel.writePixelCore_bit {a b : Nat} (h : NoPixel c a b) {fb : Memory} (hfb : Memory.wf fb = true)
    (o : Orientation) (x y : Int) (color : Color) : fbBit (writePixelCore c o fb x y color) a b = fbBit fb a b := by
  rw [fbBit, Machine.writePixelCore_bit hfb, if_neg h.ne_address]

/-- A blit is pixel writes alone, so it keeps every bit no pixel maps to. -/
theorem NoPixel.blit_bit {a b : Nat} (h : NoPixel s.cfg a b) (hfb : Memory.wf s.fb = true) (x y : Int) (src : Nat)
    (w hh : Int) (color : Color) : fbBit (blit s x y src w hh color).fb a b = fbBit s.fb a b := by
  have hkeep := blit_keeps (P := fun m => Memory.wf m = true ∧ fbBit m a b = fbBit s.fb a b) s x y src w hh color
    (fun fb px py ⟨hm, hbit⟩ => ⟨wf_writePixelCore hm _ _ px py color,
      (h.writePixelCore_bit hm s.orient px py color).trans hbit⟩) ⟨hfb, rfl⟩
  exact hkeep.2

/-! What the drawing requests leave in the framebuffer (R68 to R71, R77). -/

theorem requireReady_displayOn {u : State} (h : s.lc = .displayOn) : requireReady s u = .next u := if_pos h

theorem requireReady_fb {u : State} (h : requireReady s u = .next t) : t.fb = s.fb ∨ t.fb = u.fb := by
  unfold requireReady at h
  split at h <;> injection h with h <;> subst h
  · exact .inr rfl
  · exact .inl rfl

theorem exec_writePixel_fb {x y : BitVec 16} {color : ColorCode} (h : exec (.writePixel x y color) s = .next t) :
    t.fb = s.fb ∨ ∃ col, t.fb = writePixelCore s.cfg s.orient s.fb (coord x) (coord y) col := by
  cases color with
  | illegal => injection h with h; exact .inl (by rw [← h]; rfl)
  | legal col => exact (requireReady_fb h).imp_right fun hfb => ⟨col, hfb⟩

theorem exec_drawBitmap_fb {x y w hh : BitVec 16} {src : BitVec 32} {color : ColorCode}
    (h : exec (.drawBitmap x y w hh src color) s = .next t) :
    t.fb = s.fb ∨ ∃ col, t.fb = (blit s (coord x) (coord y) (srcAddress src) (coord w) (coord hh) col).fb := by
  cases color with
  | illegal => injection h with h; exact .inl (by rw [← h]; rfl)
  | legal col =>
    refine (requireReady_fb h).imp_right fun hfb => ⟨col, hfb.trans ?_⟩
    cases blit s (coord x) (coord y) (srcAddress src) (coord w) (coord hh) col <;> rfl

theorem exec_readPixel_fb {x y : BitVec 16} (h : exec (.readPixel x y) s = .next t) : t.fb = s.fb :=
  (requireReady_fb h).elim id id

/-- A fill writes every bit of a byte inside it, pad bits too (R68, R69). -/
theorem fbBit_fill {n a : Nat} (ha : a < n) (v : Byte) (fb : Memory) (b : Nat) :
    fbBit (Memory.fill n v fb) a b = v.getLsbD b := by
  rw [fbBit, Memory.read_fill, if_pos ha]

end Sys2Proof.Machine

/-! ### What a step keeps of the memories and the launch inputs (R33, R38) -/

namespace Sys2Proof.Machine

variable {s t u : State} {op : SeqOp} {k : Nat}

/-- The step from `s` to `t` keeps the source memory, ORIENT and the configuration, and the framebuffer's canonical form
and size. A field not given is one that holds by computation, so `{}` stands for an update of other fields. -/
structure MemoryStep (s t : State) : Prop where
  src : t.src = s.src := by rfl
  orient : t.orient = s.orient := by rfl
  cfg : t.cfg = s.cfg := by rfl
  wf : Memory.wf s.fb = true → Memory.wf t.fb = true := by exact id
  below : Memory.below s.fb (nFb s.cfg) = true → Memory.below t.fb (nFb s.cfg) = true := by exact id

theorem MemoryStep.advance (h : MemoryStep s u) : MemoryStep s (advance op k u) := by
  rcases advance_eq op k u with ⟨_, _, h'⟩ | ⟨_, _, h'⟩ | ⟨_, _, _, h'⟩ | ⟨_, _, h'⟩ <;> rw [h'] <;> exact { h with }

theorem memoryStep_beginAllocate (s : State) : MemoryStep s (beginAllocate s) := by
  unfold beginAllocate
  rw [takeAlloc_eq]
  split <;> exact {}

theorem memoryStep_takeAnswer (s : State) : MemoryStep s (takeAnswer s) := by
  rw [takeAnswer_eq]
  exact {}

theorem memoryStep_sendStep (op : SeqOp) (k : Nat) (f : List WireByte) (s : State) :
    MemoryStep s (sendStep op k f s) := by
  have hask := memoryStep_takeAnswer s
  rcases sendStep_cases op k f s with ⟨_, _, h⟩ | ⟨_, _, h⟩ | ⟨_, _, h⟩ | ⟨_, _, h⟩ | ⟨_, _, h⟩ <;> rw [h]
  · exact hask
  · exact MemoryStep.advance (u := busAnswer .ok (takeAnswer s)) { hask with }
  · exact { hask with }
  · exact {}
  · exact {}

theorem memoryStep_seqStep (h : seqStep op k s = .next t) : MemoryStep s t := by
  rcases seqStep_cases h with ⟨_, _, rfl⟩ | ⟨_, _, _, fb, rfl, hwf, hbelow⟩ | ⟨_, _, _, _, _, fb, _, rfl, hwf, hbelow⟩ |
    ⟨_, _, g, _, rfl⟩ | ⟨f, _, _, _, rfl⟩
  · exact memoryStep_beginAllocate s
  · exact MemoryStep.advance (u := { s with fb := fb }) { wf := hwf, below := hbelow }
  · exact { wf := hwf, below := hbelow }
  · exact MemoryStep.advance (u := { s with contrast := contrastFor g s.pwr }) {}
  · exact memoryStep_sendStep op k f s

theorem memoryStep_request {i : Instr} {q : RequestWord} (hi : encode i = .request q) (h : exec i s = .next t) :
    MemoryStep s t := by
  rcases request_cases hi h with ⟨c, rfl, _⟩ | ⟨_, fb, v, rfl, hwf, hbelow⟩ | ⟨_, fb, rfl, hwf, hbelow⟩ | ⟨_, _, rfl⟩ |
    ⟨_, pm, _, rfl⟩
  · exact {}
  · exact { wf := hwf, below := hbelow }
  · exact { wf := hwf, below := hbelow }
  · exact {}
  · exact { memoryStep_beginAllocate { s with pwr := pm } with }

theorem memoryStep_step (h : step s = .next t) : MemoryStep s t := by
  obtain ⟨_, _, hbyte | ⟨_, op, k, _, hseq⟩ | ⟨_, _, _, rfl⟩ | ⟨_, _, _, q, rest, _, hreq⟩⟩ := step_cases h
  · obtain ⟨b, rest, _, ⟨_, _, rfl⟩ | ⟨_, rfl⟩⟩ := hbyte <;> exact {}
  · exact memoryStep_seqStep hseq
  · exact {}
  · rcases hreq with ⟨i, hd, hx⟩ | ⟨_, _, rfl⟩
    · obtain ⟨r, hr⟩ := decodeRequest_request hd
      exact { memoryStep_request hr hx with }
    · exact {}

/-- The memory invariant asks nothing that a step does not keep. -/
theorem MemoryStep.memoryInv (h : MemoryStep s t) (hinv : MemoryInv s) : MemoryInv t := by
  obtain ⟨hwf, hsrc, hbelow, hsrcBelow⟩ := hinv
  rw [MemoryInv, h.src, h.cfg]
  exact ⟨h.wf hwf, hsrc, h.below hbelow, hsrcBelow⟩

end Sys2Proof.Machine

/-! ### Which frames of the trace have their answer (R41, R42) -/

namespace Sys2Proof.Machine

variable {s t u : State} {op : SeqOp} {k : Nat}

theorem not_awaiting_iff : awaiting s = false ↔ ∀ l e, s.trace = l ++ [e] → e.answer ≠ .pending := by
  rw [← Bool.not_eq_true, awaiting_iff]
  simp

/-- Every frame of the trace has been answered. -/
def AllAnswered (l : List BusWrite) : Prop := ∀ e ∈ l, e.answer ≠ .pending

theorem allAnswered_append {l : List BusWrite} {e : BusWrite} :
    AllAnswered (l ++ [e]) ↔ AllAnswered l ∧ e.answer ≠ .pending := by
  simp [AllAnswered, or_imp, forall_and]

/-- Answering the last frame leaves none unanswered, if the others had their answer. -/
theorem allAnswered_answerLast {l : List BusWrite} {a : Answer} (h : AllAnswered l.dropLast) (ha : a ≠ .pending) :
    AllAnswered (answerLast a l) := by
  rcases answerLast_eq a l with ⟨hl, rfl⟩ | ⟨i, e, rfl, hl⟩ <;> rw [hl]
  · exact h
  · rw [List.dropLast_concat] at h
    exact allAnswered_append.mpr ⟨h, ha⟩

/-- A block that does not wait has every frame answered, if all but the last are. -/
theorem allAnswered_of_not_awaiting (h : AllAnswered s.trace.dropLast) (hw : awaiting s = false) :
    AllAnswered s.trace := by
  rcases List.eq_nil_or_concat s.trace with hl | ⟨l, e, hl⟩
  · rwa [hl] at h ⊢
  · rw [List.concat_eq_append] at hl
    rw [hl, List.dropLast_concat] at h
    rw [hl]
    exact allAnswered_append.mpr ⟨h, not_awaiting_iff.mp hw l e hl⟩

theorem AllAnswered.dropLast {l : List BusWrite} (h : AllAnswered l) : AllAnswered l.dropLast :=
  fun e he => h e (List.mem_of_mem_dropLast he)

/-- What a step from `s` to `t` owes: the invariant in `t`, and no frame unanswered if it has issued a response. -/
def AnsweredStep (s t : State) : Prop :=
  AnsweredInv t ∧ (s.responses.length < t.responses.length → AllAnswered t.trace)

/-- It owes nothing more if no frame is unanswered. -/
theorem answeredStep_of_allAnswered (h : AllAnswered t.trace) : AnsweredStep s t :=
  ⟨⟨h.dropLast, fun _ => h⟩, fun _ => h⟩

/-- It owes only the frames before the last if the operation goes on and no response is issued. -/
theorem answeredStep_of_running (h : AllAnswered t.trace.dropLast) (hs : t.seq = .running op k)
    (hr : t.responses = s.responses) : AnsweredStep s t := by
  refine ⟨⟨h, fun hidle => ?_⟩, fun hlt => ?_⟩
  · rw [hs] at hidle
    cases hidle
  · rw [hr] at hlt
    omega

/-- It keeps the invariant if it changes neither the trace nor SEQ and issues no response. -/
theorem answeredStep_of_same (h : AnsweredInv s) (ht : t.trace = s.trace) (hs : t.seq = s.seq)
    (hr : t.responses = s.responses) : AnsweredStep s t := by
  refine ⟨by rwa [AnsweredInv, ht, hs], fun hlt => ?_⟩
  rw [hr] at hlt
  omega

/-- Before the last step of its list an operation goes on, and issues no response (R28). -/
theorem advance_of_lt (h : k + 1 < stepCount s.cfg op) :
    (advance op k s).seq = .running op (k + 1) ∧ (advance op k s).responses = s.responses := by
  rcases advance_eq op k s with ⟨hlast, _⟩ | ⟨hlast, _⟩ | ⟨_, _, _, h'⟩ | ⟨_, _, h'⟩
  · omega
  · omega
  · rw [h']
    exact ⟨rfl, rfl⟩
  · rw [h']
    exact ⟨rfl, rfl⟩

/-- BEGIN's steps up to the contrast are not its last. -/
theorem lt_stepCount_begin {c : Config} (hwf : c.wellFormed = true) (hk : k ≤ 2 + c.splash.length) :
    k + 1 < stepCount c .begin := by
  have hpages := pages_pos hwf
  simp only [stepCount, flushBase, initBase]
  omega

/-- A well-formed configuration's splash is drawn whole (R12 (e)). -/
theorem splash_done (hwf : s.cfg.wellFormed = true) {b : SplashBlit} (hb : b ∈ s.cfg.splash) (col : Color) :
    ∃ fb, blit s b.x b.y b.srcBase b.w b.h col = .done fb := by
  obtain ⟨_, _, _, _, _, _, hsplash, _⟩ := wellFormed_facts hwf
  exact blit_done s _ _ _ _ _ col ((Config.splashOk_iff s.cfg).mp (List.all_eq_true.mpr hsplash) b hb)

/-- A completed step that is not the last leaves the trace's answers to the invariant. -/
theorem answeredStep_advance (h : AllAnswered s.trace.dropLast) (ht : u.trace = s.trace) (hr : u.responses = s.responses)
    (hlt : k + 1 < stepCount u.cfg op) : AnsweredStep s (advance op k u) := by
  obtain ⟨hseq, hresp⟩ := advance_of_lt hlt
  exact answeredStep_of_running (by rwa [advance_trace, ht]) hseq (hresp.trans hr)

/-- A `Send` goes on past its frame only once it is answered, and offers the next one only then (R47, R82). -/
theorem answeredStep_sendStep (h : AnsweredInv s) (hs : s.seq = .running op k) (f : List WireByte) :
    AnsweredStep s (sendStep op k f s) := by
  have hearlier : AllAnswered s.trace.dropLast := h.1
  rcases sendStep_cases op k f s with ⟨_, _, h'⟩ | ⟨_, _, h'⟩ | ⟨_, _, h'⟩ | ⟨_, _, h'⟩ | ⟨hw, _, h'⟩ <;> rw [h']
  · exact answeredStep_of_same h (takeAnswer_trace s) (takeAnswer_seq s) (takeAnswer_responses s)
  · refine answeredStep_of_allAnswered ?_
    rw [advance_trace, busAnswer_trace, takeAnswer_trace]
    exact allAnswered_answerLast hearlier (by decide)
  · refine answeredStep_of_allAnswered ?_
    rw [raiseFault_trace, busAnswer_trace, takeAnswer_trace]
    exact allAnswered_answerLast hearlier (by decide)
  · exact answeredStep_of_same h rfl rfl rfl
  · refine answeredStep_of_running ?_ hs rfl
    rw [busOffer_trace, List.dropLast_concat]
    exact allAnswered_of_not_awaiting hearlier hw

/-- A step of an operation: the steps that send nothing are never the last, and cannot fault (R12 (e)). -/
theorem answeredStep_seqStep (hwf : s.cfg.wellFormed = true) (hinv : SequencerInv s) (h : AnsweredInv s)
    (hs : s.seq = .running op k) (hstep : seqStep op k s = .next t) : AnsweredStep s t := by
  have hearlier : AllAnswered s.trace.dropLast := h.1
  rcases seqStep_cases hstep with ⟨rfl, rfl, _⟩ | ⟨rfl, _, hk, fb, rfl, _⟩ | ⟨_, _, _, b, hb, fb, hrange, _⟩ |
    ⟨rfl, hk, g, _, rfl⟩ | ⟨f, _, _, _, rfl⟩
  · obtain ⟨hpos, _⟩ := (sequencerInv_begin hs).mp hinv
    omega
  · have hlt : k + 1 < stepCount s.cfg .begin := lt_stepCount_begin hwf (by omega)
    exact answeredStep_advance hearlier rfl rfl hlt
  · obtain ⟨fb', hdone⟩ := splash_done hwf hb .set
    rw [hdone] at hrange
    cases hrange
  · have hlt : k + 1 < stepCount s.cfg .begin := lt_stepCount_begin hwf (by omega)
    exact answeredStep_advance hearlier rfl rfl hlt
  · exact answeredStep_sendStep h hs f

theorem answeredStep_step (hinv : SequencerInv s) (h : AnsweredInv s) (hstep : step s = .next t) : AnsweredStep s t := by
  obtain ⟨hwf, _, hbyte | ⟨_, op, k, hs, hseq⟩ | ⟨_, _, _, rfl⟩ | ⟨_, hs, _, q, rest, _, hreq⟩⟩ := step_cases hstep
  · obtain ⟨b, rest, _, ⟨_, _, rfl⟩ | ⟨_, rfl⟩⟩ := hbyte <;> exact answeredStep_of_same h rfl rfl rfl
  · exact answeredStep_seqStep hwf hinv h hs hseq
  · exact answeredStep_of_same h rfl rfl rfl
  · obtain ⟨_, hidle⟩ := h
    rcases hreq with ⟨i, hd, hx⟩ | ⟨_, _, rfl⟩
    · obtain ⟨r, hr⟩ := decodeRequest_request hd
      refine answeredStep_of_allAnswered ?_
      rw [request_trace hr hx]
      exact hidle hs
    · exact answeredStep_of_allAnswered (hidle hs)

end Sys2Proof.Machine

/-! ### The statements -/

open Sys2Proof Sys2Proof.Machine

/-- Settles O21: the pixel of an address is column `idx mod W` and row `8 * (idx div W) + bit`. -/
theorem pixelAddressLaw : Obligations.PixelAddressLaw := by
  intro c hw
  refine ⟨fun x y h => ⟨rfl, rfl, pixelIndex_lt (inRange_iff.mpr h)⟩,
    fun x y x' y' h h' => pixel_injective (inRange_iff.mpr h) (inRange_iff.mpr h'), fun idx bit _ hbit => ⟨?_, ?_⟩⟩
  · rintro ⟨x, y, h, rfl, rfl⟩
    exact address_of_pixel h
  · exact pixel_of_address hw hbit

/-- Settles O22: WRITE_PIXEL and DRAW_BITMAP write pixels alone, READ_PIXEL writes nothing, and CLEAR and FILL write
whole bytes. -/
theorem padBitsAreNotPixels : Obligations.PadBitsAreNotPixels := by
  intro s a b hwf hb ha hpad
  refine ⟨fun x y c t h => ?_, fun x y t h => exec_readPixel_fb h, fun x y w hh src c t h => ?_,
    fun hlc => ⟨⟨_, requireReady_displayOn hlc, ?_⟩, ⟨_, requireReady_displayOn hlc, ?_⟩⟩⟩
  · rcases exec_writePixel_fb h with h | ⟨col, h⟩ <;> rw [h]
    exact hpad.writePixelCore_bit hwf _ _ _ col
  · rcases exec_drawBitmap_fb h with h | ⟨col, h⟩ <;> rw [h]
    exact hpad.blit_bit hwf _ _ _ _ _ col
  · exact (fbBit_fill ha 0x00#8 s.fb b).trans BitVec.getLsbD_zero
  · have hones : (0xFF#8 : Byte).getLsbD b = true := by
      rw [show 0xFF#8 = BitVec.allOnes 8 from rfl, BitVec.getLsbD_allOnes, decide_eq_true hb]
    exact (fbBit_fill ha 0xFF#8 s.fb b).trans hones

/-- Settles O41: everything a step can do to the trace (`step_trace`), with the last entry written out. -/
theorem traceGrowsOneFrameAtATime : Obligations.TraceGrowsOneFrameAtATime := by
  intro s t hstep
  rcases step_trace hstep with h | ⟨hw, a, ha, h⟩ | ⟨hw, h⟩
  · exact .inl h
  · obtain ⟨l, e, hl, he⟩ := (awaiting_iff s).mp hw
    exact .inr (.inl ⟨l, e, a, hl, he, ha, by rw [h, hl, answerLast_append]⟩)
  · exact .inr (.inr ⟨not_awaiting_iff.mp hw, h⟩)

/-- Settles O42: by everything a step can do (`answeredStep_step`). -/
theorem idleMeansEveryFrameAnswered : Obligations.IdleMeansEveryFrameAnswered := by
  intro s t hinv h hstep
  exact answeredStep_step hinv h hstep

/-- Settles O44: every operation on the framebuffer keeps its form and size (`memoryStep_step`). -/
theorem stepKeepsMemoriesCanonical : Obligations.StepKeepsMemoriesCanonical := by
  intro s t hinv hstep
  exact (memoryStep_step hstep).memoryInv hinv

/-- Settles O50: no operation writes the three fields (`memoryStep_step`). -/
theorem launchInputsNeverChange : Obligations.LaunchInputsNeverChange := by
  intro s t hstep
  have h := memoryStep_step hstep
  exact ⟨h.src, h.orient, h.cfg⟩

end

section
/-! SUPPORT. The encoding (spec/30_encoding.md): the decoder undoes the encoder, which words decode to which operation,
the checks on a request in order (R63), and the wire bytes' values (R59, R61). -/

/-! ### The decoder and the encoder -/

namespace Sys2Proof

/-- A packed word's reserved bits are 0, so its operation code alone says what it decodes to. -/
theorem decodeRequest_pack (src : BitVec 32) (h w y x : BitVec 16) (pm : BitVec 1) (color : BitVec 2) (op : BitVec 4) :
    decodeRequest (packRequest src h w y x pm color op) =
      if op = 1#4 then .ok (.begin (powerModeOfCode pm))
      else if op = 2#4 then .ok .clear
      else if op = 3#4 then .ok .fill
      else if op = 4#4 then .ok (.writePixel x y (colorOfCode color))
      else if op = 5#4 then .ok (.drawBitmap x y w h src (colorOfCode color))
      else if op = 6#4 then .ok .flush
      else if op = 7#4 then .ok (.readPixel x y)
      else .error .reservedOp := by
  simp [decodeRequest]

theorem decode_encode_pageSel (p : BitVec 4) : decode (encode (.pageSel p)) = .ok (.pageSel p) := by
  obtain ⟨hfixed, hpage⟩ := pageSelByte_fields p
  simp [encode, decode, decodeWire, hfixed, hpage]

theorem decode_encode_multiplexOperand (v : BitVec 7) :
    decode (encode (.multiplexOperand v)) = .ok (.multiplexOperand v) := by
  obtain ⟨hfixed, hoperand⟩ := multiplexOperand_fields v
  simp only [encode, decode, decodeWire, hfixed, hoperand, if_true]

/-- Decoding an instruction's encoding gives it back: a request by its packed fields, a wire byte at its place. -/
theorem decode_encode (i : Instr) : decode (encode i) = .ok i := by
  cases i with
  | begin pm => exact (decodeRequest_pack ..).trans (by simp)
  | clear => exact decodeRequest_pack ..
  | fill => exact decodeRequest_pack ..
  | writePixel x y color => exact (decodeRequest_pack ..).trans (by simp)
  | drawBitmap x y w h src color => exact (decodeRequest_pack ..).trans (by simp)
  | flush => exact decodeRequest_pack ..
  | readPixel x y => exact decodeRequest_pack ..
  | pageSel p => exact decode_encode_pageSel p
  | multiplexOperand v => exact decode_encode_multiplexOperand v
  | _ => rfl

theorem colorOfCode_eq_illegal_iff (c : BitVec 2) : colorOfCode c = .illegal ↔ c = 3#2 := by
  revert c
  decide

/-- The value of the page-select byte: the page is added to `0xB0` (R59). -/
theorem pageSelByte_toNat (p : BitVec 4) : (pageSelByte p).toNat = 0xB0 + p.toNat := by
  revert p
  decide

/-- A bare word of the table is the instruction its encoding decodes to. -/
theorem decodeTableWord_eq_some {nbits w : Nat} {i : Instr} (h : decodeTableWord nbits w = some i) :
    decode (encodingOfWord nbits w) = .ok i := by
  unfold decodeTableWord at h
  split at h
  · rename_i j hj
    rw [hj, Option.some.inj h]
  · cases h

end Sys2Proof

/-! ### Which request words decode, and to what (R50, R52, R62) -/

namespace Sys2Proof.Machine

variable {q r : RequestWord} {i : Instr}

/-- A word with the reserved bits 0 and operation code 1 to 7 decodes: to BEGIN for code 1 alone, and to an instruction
with an illegal colour for codes 4 and 5 with colour code 3 alone. -/
theorem decodeRequest_listedOp (hq : reservedClear q) (h1 : 1 ≤ requestOp q) (h7 : requestOp q ≤ 7) :
    ∃ i, decodeRequest q = .ok i ∧ ((∃ pm, i = .begin pm) ↔ requestOp q = 1) ∧
      (i.wellFormed = false ↔ (requestOp q = 4 ∨ requestOp q = 5) ∧ requestField q 4 2 = 3#2) := by
  rw [decodeRequest_clear hq]
  generalize requestOp q = n at h1 h7 ⊢
  interval_cases n <;> exact ⟨_, rfl, by simp, by simp [Instr.wellFormed, colorOfCode_eq_illegal_iff]⟩

/-- Exactly the reserved words decode to nothing (R62 (a), (b)). -/
theorem decodeRequest_error_iff (q : RequestWord) :
    (∃ e, decodeRequest q = .error e) ↔ ¬ reservedClear q ∨ requestOp q = 0 ∨ 8 ≤ requestOp q := by
  constructor
  · rintro ⟨e, he⟩
    by_contra hlisted
    have hq : reservedClear q := by tauto
    obtain ⟨i, hi, _⟩ := decodeRequest_listedOp hq (by omega) (by omega)
    rw [hi] at he
    cases he
  · intro h
    by_cases hq : reservedClear q
    · have hop : requestOp q = 0 ∨ 8 ≤ requestOp q := h.resolve_left (not_not_intro hq)
      rw [decodeRequest_clear hq]
      iterate 7 rw [if_neg (by omega)]
      exact ⟨_, rfl⟩
    · exact ⟨_, decodeRequest_reserved hq⟩

theorem reservedClear_of_decodeRequest (h : decodeRequest q = .ok i) : reservedClear q := by
  by_contra hq
  rw [decodeRequest_reserved hq] at h
  cases h

theorem qOp_congr (h : requestOp r = requestOp q) : qOp r = qOp q := by
  have hq : qOp q = BitVec.ofNat 4 (requestOp q) := (qOp_eq_iff q (Nat.mod_lt _ (by decide))).mpr rfl
  rw [hq]
  exact (qOp_eq_iff r (Nat.mod_lt _ (by decide))).mpr h

/-- The decoder reads the operation code, the reserved bits and the operation's own operand fields, and no other field
(R50). -/
theorem decodeRequest_congr (h : decodeRequest q = .ok i) (hr : reservedClear r) (hop : requestOp r = requestOp q)
    (hsame : sameOperands i q r) : decodeRequest r = .ok i := by
  unfold decodeRequest at h ⊢
  rw [if_neg fun hbad => (reserved_iff q).mp hbad (reservedClear_of_decodeRequest h)] at h
  rw [if_neg fun hbad => (reserved_iff r).mp hbad hr, qOp_congr hop]
  split_ifs at h ⊢ <;> injection h with h <;> subst h
  · have hpm : qPm q = qPm r := hsame
    rw [hpm]
  · rfl
  · rfl
  · obtain ⟨hx, hy, hcolor⟩ := hsame
    rw [hx, hy, hcolor]
  · obtain ⟨hx, hy, hw, hh, hsrc, hcolor⟩ := hsame
    rw [hx, hy, hw, hh, hsrc, hcolor]
  · rfl
  · obtain ⟨hx, hy⟩ := hsame
    rw [hx, hy]

end Sys2Proof.Machine

/-! ### What a step does with a request and with a listed byte (R63) -/

namespace Sys2Proof.Machine

variable {s : State} {q : RequestWord} {rest : List RequestWord} {i : Instr}

theorem faultWord_eq_faultResponse (c : FaultCode) : faultWord c = faultResponse c := by
  cases c <;> rfl

theorem okWord_eq_okResponse (v : Bool) : okWord v = okResponse v := by
  cases v <;> rfl

/-- Fault entry, in the claims' words (R103). -/
theorem raiseFault_eq_afterFault (c : FaultCode) (s : State) : raiseFault c s = afterFault c s := by
  rw [afterFault, ← faultWord_eq_faultResponse]
  rfl

theorem Ready.step_ok (h : Ready s q rest) (hd : decodeRequest q = .ok i) :
    step s = exec i { s with offered := rest, busy := true } := by
  obtain ⟨hwf, hf, he, hs, hb, ho⟩ := h
  exact step_accept hwf hf he hs hb ho hd

theorem Ready.step_error (h : Ready s q rest) {e : DecodeError} (hd : decodeRequest q = .error e) :
    step s = .next (raiseFault .illegalOp { s with offered := rest, busy := true }) := by
  obtain ⟨hwf, hf, he, hs, hb, ho⟩ := h
  simp [step, fetch, hwf, hf, he, hs, hb, ho, acceptRequest, hd]

/-- An accepted request whose meaning is a fault: the fault entry is all that changes (R103). -/
theorem Ready.step_fault (h : Ready s q rest) (hd : decodeRequest q = .ok i) {c : FaultCode}
    (hx : exec i { s with offered := rest, busy := true } =
      .next (raiseFault c { s with offered := rest, busy := true })) :
    step s = .next (afterFault c { s with offered := rest }) := by
  rw [h.step_ok hd, hx, raiseFault_eq_afterFault]
  rfl

/-- The framer's next byte, if the table lists it at its place, is run. -/
theorem step_listedByte {b : WireByte} {bytes : List WireByte} (hwf : s.cfg.wellFormed = true)
    (hf : s.faultValid = false) (he : s.emit = b :: bytes) (hd : decodeWire b = .ok i) :
    step s = exec i { s with emit := bytes } := by
  simp [step, fetch, hwf, hf, he, fetchByte, hd]

/-- A halted block takes no step (R103, R107). -/
theorem step_halted (hwf : s.cfg.wellFormed = true) (hf : s.faultValid = true) :
    step s = .fault (.halted s.faultCode) := by
  simp [step, fetch, hwf, hf]

/-- The colour check comes before all others of the operation (R63). -/
theorem exec_illegalColor (h : i.wellFormed = false) (s : State) : exec i s = .next (raiseFault .illegalColor s) := by
  cases i with
  | writePixel x y color =>
    have hc : color = .illegal := by simpa [Instr.wellFormed] using h
    rw [hc]
    rfl
  | drawBitmap x y w hh src color =>
    have hc : color = .illegal := by simpa [Instr.wellFormed] using h
    rw [hc]
    rfl
  | _ => cases h

theorem execBegin_refused {pm : PowerMode} (h : s.lc ≠ .uninitialized) :
    exec (.begin pm) s = .next (raiseFault .beginState s) := if_neg h

theorem requireReady_notReady (h : s.lc ≠ .displayOn) (t : State) :
    requireReady s t = .next (raiseFault .notReady s) := if_neg h

/-- Every request but BEGIN needs the display, once its colour is legal (R67). -/
theorem exec_notReady (hi : encode i = .request q) (hbegin : ∀ pm, i ≠ .begin pm) (hcolor : i.wellFormed ≠ false)
    (h : s.lc ≠ .displayOn) : exec i s = .next (raiseFault .notReady s) := by
  cases i with
  | begin pm => exact absurd rfl (hbegin pm)
  | clear => exact requireReady_notReady h _
  | fill => exact requireReady_notReady h _
  | writePixel x y color =>
    cases color with
    | illegal => exact absurd rfl hcolor
    | legal c => exact requireReady_notReady h _
  | drawBitmap x y w hh src color =>
    cases color with
    | illegal => exact absurd rfl hcolor
    | legal c => exact requireReady_notReady h _
  | flush => exact requireReady_notReady h _
  | readPixel x y => exact requireReady_notReady h _
  | _ => cases hi

/-- A word placed for the next step is what that step runs, and placing it leaves LC, the framebuffer, the trace, the
frame and the configuration alone. -/
theorem step_placeWord {e : Encoding} (hwf : s.cfg.wellFormed = true) (hd : decode e = .ok i) :
    ∃ t, step (placeWord s e) = exec i t ∧ t.lc = s.lc ∧ t.fb = s.fb ∧ t.trace = s.trace ∧
      t.frame = s.frame ∧ t.cfg = s.cfg := by
  cases e with
  | wire b =>
    have hstep : step (placeWord s (.wire b)) = exec i { placeWord s (.wire b) with emit := s.emit } :=
      step_listedByte hwf rfl rfl hd
    exact ⟨_, hstep, rfl, rfl, rfl, rfl, rfl⟩
  | request q =>
    have hready : Ready (placeWord s (.request q)) q s.offered := ⟨hwf, rfl, rfl, rfl, rfl, rfl⟩
    exact ⟨_, hready.step_ok hd, rfl, rfl, rfl, rfl, rfl⟩

end Sys2Proof.Machine

/-! ### The statements -/

open Sys2Proof Sys2Proof.Machine

/-- Settles O1: a request by its packed fields, a wire byte at its place (`decode_encode`). -/
theorem decodeEncodeAgree : Obligations.DecodeEncodeAgree :=
  decode_encode

/-- Settles O2: the decoder reads no other field (`decodeRequest_congr`). -/
theorem unusedRequestFieldsAreIgnored : Obligations.UnusedRequestFieldsAreIgnored := by
  intro q r i h hr hop hsame
  exact decodeRequest_congr h hr hop hsame

/-- Settles O3: the listed words decode, and the others fail a check (`decodeRequest_error_iff`). -/
theorem reservedRequestsHaveNoInstruction : Obligations.ReservedRequestsHaveNoInstruction :=
  decodeRequest_error_iff

/-- Settles O4: the decoder run on each of the eight words. -/
theorem wordsOfTheSpecDecode : Obligations.WordsOfTheSpecDecode := by
  unfold Obligations.WordsOfTheSpecDecode
  decide

/-- Settles O5: the acceptance of a request that decodes (`Ready.step_ok`). -/
theorem stepRunsTheDecodedRequest : Obligations.StepRunsTheDecodedRequest := by
  intro s q rest i hready hd
  exact hready.step_ok hd

/-- Settles O7: the word's encoding decodes to the instruction, and `placeWord` puts it where the step takes it. -/
theorem fetchedWordRunsNext : Obligations.FetchedWordRunsNext := by
  intro s nbits w i hwf h
  exact step_placeWord hwf (decodeTableWord_eq_some h)

/-- Settles O8: the decoder's check, then the colour check, then the lifecycle check, each by its own lemma on the
instruction the word decodes to. -/
theorem requestChecksRunInOrder : Obligations.RequestChecksRunInOrder := by
  refine ⟨fun s q rest hready => ⟨fun hbad => ?_, fun hq hop hcolor => ?_, fun hq hop hlc => ?_,
    fun hq h2 h7 hlegal hlc => ?_, fun hq h1 h7 => ?_⟩, fun s hwf hf => step_halted hwf hf⟩
  · obtain ⟨e, he⟩ := (decodeRequest_error_iff q).mpr hbad
    rw [hready.step_error he, raiseFault_eq_afterFault]
    rfl
  · obtain ⟨i, hd, _, hwf⟩ := decodeRequest_listedOp hq (by omega) (by omega)
    exact hready.step_fault hd (exec_illegalColor (hwf.mpr ⟨hop, hcolor⟩) _)
  · obtain ⟨i, hd, hbegin, _⟩ := decodeRequest_listedOp hq (by omega) (by omega)
    obtain ⟨pm, rfl⟩ := hbegin.mpr hop
    exact hready.step_fault hd (execBegin_refused hlc)
  · obtain ⟨i, hd, hbegin, hwf⟩ := decodeRequest_listedOp hq (by omega) (by omega)
    obtain ⟨r, hr⟩ := decodeRequest_request hd
    have hnotBegin : ∀ pm, i ≠ .begin pm := fun pm hpm => by
      have := hbegin.mp ⟨pm, hpm⟩
      omega
    exact hready.step_fault hd (exec_notReady hr hnotBegin (mt hwf.mp hlegal) hlc)
  · obtain ⟨i, hd, _⟩ := decodeRequest_listedOp hq h1 h7
    exact ⟨i, hd, hready.step_ok hd⟩

/-- Settles O37: each wire byte's meaning is one update of the frame, with the byte written out. -/
theorem wireBytesEnterTheFrame : Obligations.WireBytesEnterTheFrame := by
  intro s
  exact ⟨rfl, rfl, fun _ => rfl, rfl, rfl, rfl, fun _ => rfl, rfl, rfl, rfl, rfl⟩

/-- Settles O38: the byte's value is `0xB0 + p` (`pageSelByte_toNat`), so the page can be read back from it. -/
theorem pageSelectBytesAreDistinct : Obligations.PageSelectBytesAreDistinct := by
  have value {p : Nat} (hp : p < 16) : (pageSelOf p).toNat = 0xB0 + p := by
    rw [pageSelOf, pageSelByte_toNat, BitVec.toNat_ofNat, Nat.mod_eq_of_lt hp]
  intro p p' hp hp'
  refine ⟨?_, value hp, fun heq => ?_⟩
  · have hwiden : (BitVec.ofNat 4 p).setWidth 8 = BitVec.ofNat 8 p := by
      apply BitVec.eq_of_toNat_eq
      simp only [BitVec.toNat_setWidth, BitVec.toNat_ofNat]
      omega
    rw [pageSelOf, pageSelByte, hwiden]
  · have hvalue := congrArg BitVec.toNat heq
    rw [value hp, value hp'] at hvalue
    omega

/-- Settles O39: the operand is byte 4 of the init stream, after CMD_SET_MULTIPLEX, and `H - 1` fits in 7 bits. -/
theorem multiplexOperandIsHeightMinusOne : Obligations.MultiplexOperandIsHeightMinusOne := by
  intro c g pwr v
  refine ⟨rfl, rfl, fun h1 h128 => ?_⟩
  have hvalue : (multiplexByte c).toNat = c.height - 1 := by
    rw [multiplexByte, BitVec.toNat_ofNat]
    omega
  refine ⟨hvalue, by omega, fun h64 => ?_⟩
  rw [multiplexByte, h64]

/-- Settles O52: the two kinds of response word, for both values and for every fault code. -/
theorem responseWordLayout : Obligations.ResponseWordLayout := by
  refine ⟨fun v => ⟨?_, ?_⟩, fun c => ⟨faultWord_eq_faultResponse c, ?_⟩⟩
  · rw [respond_responses, okWord_eq_okResponse]
    rfl
  · cases v <;> decide
  · cases c <;> decide

end

section
/-! SUPPORT. The request port and the framer over a step (spec/30_encoding.md R55, R56): no request is lost or answered
twice, and every frame is built from the frame of the step in progress and offered whole. -/

/-! ### The request port and the responses (R55, R116) -/

namespace Sys2Proof.Machine

variable {s t u : State} {op : SeqOp} {k : Nat}

/-- The two states agree in the request port, BUSY and the responses. A field not given is one that holds by
computation, so `{}` stands for an update that names none of the three. -/
structure SamePort (s u : State) : Prop where
  offered : u.offered = s.offered := by rfl
  busy : u.busy = s.busy := by rfl
  responses : u.responses = s.responses := by rfl

/-- The port from `s` to `t`: as it was, or BUSY cleared with one response issued; no request is taken or dropped. -/
def PortStep (s t : State) : Prop :=
  SamePort s t ∨ t.offered = s.offered ∧ t.busy = false ∧ ∃ r, t.responses = s.responses ++ [r]

theorem SamePort.respond (h : SamePort s u) (r : ResponseWord) : PortStep s (respond r u) :=
  .inr ⟨h.offered, rfl, r, by rw [respond_responses, h.responses]⟩

theorem SamePort.raiseFault (h : SamePort s u) (c : FaultCode) : PortStep s (raiseFault c u) :=
  SamePort.respond (u := { u with faultValid := true, faultCode := c, seq := .idle }) { h with } (faultWord c)

theorem SamePort.advance (h : SamePort s u) : PortStep s (advance op k u) := by
  rcases advance_eq op k u with ⟨_, _, h'⟩ | ⟨_, _, h'⟩ | ⟨_, _, _, h'⟩ | ⟨_, _, h'⟩ <;> rw [h']
  · exact SamePort.respond (u := { u with lc := .displayOn, seq := .idle }) { h with } _
  · exact SamePort.respond (u := { u with seq := .idle }) { h with } _
  · exact .inl { h with }
  · exact .inl { h with }

theorem samePort_takeAnswer (s : State) : SamePort s (takeAnswer s) := by
  rw [takeAnswer_eq]
  exact {}

theorem SamePort.beginAllocate (h : SamePort s u) : PortStep s (beginAllocate u) := by
  have htake : SamePort s (takeAlloc u) := by
    rw [takeAlloc_eq]
    exact { h with }
  cases ha : allocResult u with
  | true =>
    rw [beginAllocate_success ha]
    exact .inl { htake with }
  | false =>
    rw [beginAllocate_failure ha]
    exact SamePort.respond (u := { takeAlloc u with lc := .failed, seq := .idle }) { htake with } _

theorem portStep_sendStep (op : SeqOp) (k : Nat) (f : List WireByte) (s : State) : PortStep s (sendStep op k f s) := by
  have hask := samePort_takeAnswer s
  rcases sendStep_cases op k f s with ⟨_, _, h⟩ | ⟨_, _, h⟩ | ⟨_, _, h⟩ | ⟨_, _, h⟩ | ⟨_, _, h⟩ <;> rw [h]
  · exact .inl hask
  · exact SamePort.advance (u := busAnswer .ok (takeAnswer s)) { hask with }
  · exact SamePort.raiseFault (u := busAnswer .fail (takeAnswer s)) { hask with } _
  · exact .inl {}
  · exact .inl {}

theorem portStep_seqStep (h : seqStep op k s = .next t) : PortStep s t := by
  rcases seqStep_cases h with ⟨_, _, rfl⟩ | ⟨_, _, _, fb, rfl, _⟩ | ⟨_, _, _, _, _, fb, _, rfl, _⟩ | ⟨_, _, g, _, rfl⟩ |
    ⟨f, _, _, _, rfl⟩
  · exact SamePort.beginAllocate {}
  · exact SamePort.advance {}
  · exact SamePort.raiseFault {} _
  · exact SamePort.advance {}
  · exact portStep_sendStep op k f s

/-- A request that is run leaves the port alone, and issues at most its own response. -/
theorem portStep_request {i : Instr} {q : RequestWord} (hi : encode i = .request q) (h : exec i s = .next t) :
    PortStep s t := by
  rcases request_cases hi h with ⟨c, rfl, _⟩ | ⟨_, fb, v, rfl, _⟩ | ⟨_, fb, rfl, _⟩ | ⟨_, _, rfl⟩ | ⟨_, pm, _, rfl⟩
  · exact SamePort.raiseFault {} c
  · exact SamePort.respond {} _
  · exact SamePort.raiseFault {} _
  · exact .inl {}
  · exact SamePort.beginAllocate {}

/-- The requests waiting, the one in progress and the responses issued. -/
def requestTotal (s : State) : Nat := s.offered.length + s.responses.length + (if s.busy then 1 else 0)

theorem SamePort.requestTotal_eq (h : SamePort s t) : requestTotal t = requestTotal s := by
  rw [requestTotal, requestTotal, h.offered, h.responses, h.busy]

/-- The response of the request in progress takes its place in the total. -/
theorem PortStep.requestTotal_eq (h : PortStep s t) (hb : s.busy = true) : requestTotal t = requestTotal s := by
  rcases h with hsame | ⟨hoffered, hbusy, r, hresp⟩
  · exact hsame.requestTotal_eq
  · simp only [requestTotal, hoffered, hresp, hbusy, hb, List.length_append, List.length_singleton, if_true,
      Bool.false_eq_true, if_false]
    omega

/-- The request accepted takes its place in the total. -/
theorem requestTotal_accept {q : RequestWord} {rest : List RequestWord} (hb : s.busy = false)
    (ho : s.offered = q :: rest) : requestTotal { s with offered := rest, busy := true } = requestTotal s := by
  simp only [requestTotal, hb, ho, List.length_cons, if_true, Bool.false_eq_true, if_false]
  omega

theorem requestTotal_step (hinv : BusyInv s) (hstep : step s = .next t) : requestTotal t = requestTotal s := by
  obtain ⟨_, _, hbyte | ⟨_, op, k, hs, hseq⟩ | ⟨_, _, _, rfl⟩ | ⟨_, _, hb, q, rest, ho, hreq⟩⟩ := step_cases hstep
  · obtain ⟨b, rest, _, ⟨_, _, rfl⟩ | ⟨_, rfl⟩⟩ := hbyte <;> rfl
  · have hbusy : s.busy = true := hinv.mpr (by simp [hs])
    exact (portStep_seqStep hseq).requestTotal_eq hbusy
  · rfl
  · rw [← requestTotal_accept hb ho]
    rcases hreq with ⟨i, hd, hx⟩ | ⟨_, _, rfl⟩
    · obtain ⟨r, hr⟩ := decodeRequest_request hd
      exact (portStep_request hr hx).requestTotal_eq rfl
    · exact (SamePort.raiseFault {} _).requestTotal_eq rfl

end Sys2Proof.Machine

/-! ### The frame being built (R79, R80) -/

namespace Sys2Proof.Machine

variable {s t u : State} {op : SeqOp} {k : Nat}

/-- The framer is part-way through the frame of step `k`: `sent` is in the frame, and `emit` is still to come. -/
structure Building (s : State) (op : SeqOp) (k : Nat) (sent : List WireByte) : Prop where
  notAwaiting : awaiting s = false
  seq : s.seq = .running op k
  sendFrame : sendFrame s op k = some (sent ++ s.emit)
  frame : s.frame = frameBytes sent

/-- `FramerInv` without the position: the frame of the step is what is built and then what is to come. -/
theorem framerInv_iff : FramerInv s ↔ s.frame = [] ∧ s.emit = [] ∨ ∃ op k sent, Building s op k sent := by
  refine or_congr_right ⟨?_, ?_⟩
  · rintro ⟨hw, op, k, f, n, hs, hsend, _, hframe, hemit⟩
    exact ⟨op, k, f.take n, hw, hs, by rw [hemit, List.take_append_drop, hsend], hframe⟩
  · rintro ⟨op, k, sent, hw, hs, hsend, hframe⟩
    exact ⟨hw, op, k, sent ++ s.emit, sent.length, hs, hsend, by simp, by simpa using hframe, by simp⟩

theorem framerInv_empty (hframe : s.frame = []) (hemit : s.emit = []) : FramerInv s := .inl ⟨hframe, hemit⟩

/-- Between operations the framer holds nothing. -/
theorem FramerInv.frame_of_idle (h : FramerInv s) (hs : s.seq = .idle) : s.frame = [] := by
  rcases framerInv_iff.mp h with ⟨hframe, _⟩ | ⟨op, k, sent, hb⟩
  · exact hframe
  · cases hs.symm.trans hb.seq

/-- A framer with nothing to come is empty, or holds the whole frame of the step in progress. -/
theorem FramerInv.frame_built (h : FramerInv s) (hemit : s.emit = []) (hs : s.seq = .running op k) :
    s.frame = [] ∨ awaiting s = false ∧ ∃ f, sendFrame s op k = some f ∧ s.frame = frameBytes f := by
  rcases framerInv_iff.mp h with ⟨hframe, _⟩ | ⟨op', k', sent, hw, hs', hsend, hframe⟩
  · exact .inl hframe
  · rw [hs] at hs'
    cases hs'
    rw [hemit, List.append_nil] at hsend
    exact .inr ⟨hw, sent, hsend, hframe⟩

/-- A tag can only be the frame's first byte (R81). -/
theorem GoodFrame.sent_eq_nil {sent rest : List WireByte} {b : WireByte} (h : GoodFrame (sent ++ b :: rest))
    (hb : b.slot = .tag) : sent = [] := by
  obtain ⟨v, r, heq, _, _, htag⟩ := h
  cases sent with
  | nil => rfl
  | cons a l =>
    injection heq with _ htail
    exact absurd hb (htag b (by simp [← htail]))

theorem GoodFrame.frameOk {f : List WireByte} (h : GoodFrame f) : FrameOk (frameBytes f) := by
  obtain ⟨v, r, rfl, hv, hne, _⟩ := h
  exact ⟨v, frameBytes r, rfl, hv, by simpa [frameBytes] using hne⟩

/-- One more byte of the frame is built: it moves from the bytes to come to the frame. -/
theorem Building.next {sent rest : List WireByte} {b : WireByte} (h : Building s op k sent) (he : s.emit = b :: rest) :
    Building { s with emit := rest, frame := s.frame ++ [b.byte] } op k (sent ++ [b]) := by
  obtain ⟨hw, hs, hsend, hframe⟩ := h
  refine ⟨hw, hs, ?_, by simp [frameBytes, hframe]⟩
  rw [he] at hsend
  rw [List.append_assoc]
  exact hsend

/-- A step that puts a byte in the frame keeps the framer part-way through the frame of the step in progress. -/
theorem framerInv_byte (hwf : s.cfg.wellFormed = true) (h : FramerInv s) {b : WireByte} {rest : List WireByte}
    (he : s.emit = b :: rest)
    (ht : b.slot = .tag ∧ t = openFrame b.byte { s with emit := rest } ∨ t = appendByte b.byte { s with emit := rest }) :
    FramerInv t := by
  rcases framerInv_iff.mp h with ⟨_, hemit⟩ | ⟨op, k, sent, hb⟩
  · rw [hemit] at he
    cases he
  · refine framerInv_iff.mpr (.inr ⟨op, k, sent ++ [b], ?_⟩)
    have hnext := hb.next he
    rcases ht with ⟨htag, rfl⟩ | rfl
    · have hgood := sendFrame_good hwf hb.sendFrame
      rw [he] at hgood
      have hempty : s.frame = [] := by rw [hb.frame, hgood.sent_eq_nil htag]; rfl
      rw [hempty] at hnext
      exact hnext
    · exact hnext

end Sys2Proof.Machine

/-! ### The frames of the trace (R39, R41, R81) -/

namespace Sys2Proof.Machine

variable {s t u : State} {op : SeqOp} {k : Nat}

theorem TraceInv.congr (h : TraceInv s) (hcfg : t.cfg = s.cfg) (htrace : t.trace = s.trace) : TraceInv t := by
  rwa [TraceInv, hcfg, htrace]

/-- An answer to the last frame leaves what was sent, and the frames before it, as they were. -/
theorem TraceInv.answered (h : TraceInv s) {a : Answer} (hcfg : t.cfg = s.cfg)
    (htrace : t.trace = answerLast a s.trace) : TraceInv t := by
  rcases answerLast_eq a s.trace with ⟨hl, _⟩ | ⟨l, e, hs, hl⟩
  · exact h.congr hcfg (htrace.trans hl)
  · obtain ⟨hsent, hearlier⟩ := h
    rw [hs] at hsent hearlier
    rw [List.dropLast_concat] at hearlier
    rw [TraceInv, hcfg, htrace, hl, List.dropLast_concat]
    simp only [List.mem_append, List.mem_singleton, or_imp, forall_and, forall_eq] at hsent ⊢
    exact ⟨hsent, hearlier⟩

/-- A whole frame is offered when every frame before it has its answer. -/
theorem TraceInv.busOffer (h : TraceInv s) (hw : awaiting s = false) (hframe : FrameOk s.frame) :
    TraceInv (busOffer s) := by
  obtain ⟨hsent, hearlier⟩ := h
  rw [TraceInv, busOffer_trace, List.dropLast_concat, busOffer_cfg]
  refine ⟨fun e he => ?_, allAnswered_of_not_awaiting hearlier hw⟩
  rcases List.mem_append.mp he with hold | hnew
  · exact hsent e hold
  · rw [List.mem_singleton.mp hnew]
    exact ⟨rfl, rfl, hframe⟩

/-- The two states agree in the configuration, the framer and the trace. A field not given is one that holds by
computation, so `{}` stands for an update that names none of them. -/
structure SameFrames (s u : State) : Prop where
  cfg : u.cfg = s.cfg := by rfl
  frame : u.frame = s.frame := by rfl
  emit : u.emit = s.emit := by rfl
  trace : u.trace = s.trace := by rfl

theorem SameFrames.advance (h : SameFrames s u) : SameFrames s (advance op k u) := by
  rcases advance_eq op k u with ⟨_, _, h'⟩ | ⟨_, _, h'⟩ | ⟨_, _, _, h'⟩ | ⟨_, _, h'⟩ <;> rw [h'] <;> exact { h with }

theorem sameFrames_takeAnswer (s : State) : SameFrames s (takeAnswer s) := by
  rw [takeAnswer_eq]
  exact {}

theorem sameFrames_beginAllocate (s : State) : SameFrames s (beginAllocate s) := by
  unfold beginAllocate
  rw [takeAlloc_eq]
  split <;> exact {}

theorem sameFrames_request {i : Instr} {q : RequestWord} (hi : encode i = .request q) (h : exec i s = .next t) :
    SameFrames s t := by
  rcases request_cases hi h with ⟨c, rfl, _⟩ | ⟨_, fb, v, rfl, _⟩ | ⟨_, fb, rfl, _⟩ | ⟨_, _, rfl⟩ | ⟨_, pm, _, rfl⟩
  · exact {}
  · exact {}
  · exact {}
  · exact {}
  · exact { sameFrames_beginAllocate { s with pwr := pm } with }

/-- A step of an operation that sends no frame leaves the framer and the trace alone. -/
theorem sameFrames_seqStep (hsend : sendFrame s op k = none) (h : seqStep op k s = .next t) : SameFrames s t := by
  rcases seqStep_cases h with ⟨_, _, rfl⟩ | ⟨_, _, _, fb, rfl, _⟩ | ⟨_, _, _, _, _, fb, _, rfl, _⟩ | ⟨_, _, g, _, rfl⟩ |
    ⟨f, hf, _⟩
  · exact sameFrames_beginAllocate s
  · exact SameFrames.advance {}
  · exact {}
  · exact SameFrames.advance {}
  · cases hsend.symm.trans hf

/-- The framer's and the trace's invariants together. -/
structure FramesInv (s : State) : Prop where
  framer : FramerInv s
  trace : TraceInv s

/-- A step that touches neither an empty framer nor the trace keeps both invariants. -/
theorem SameFrames.framesInv (h : SameFrames s t) (hframe : s.frame = []) (hemit : s.emit = []) (htrace : TraceInv s) :
    FramesInv t :=
  ⟨framerInv_empty (h.frame.trans hframe) (h.emit.trans hemit), htrace.congr h.cfg h.trace⟩

/-- A `Send` (R82): it waits, or records the answer, with the framer empty; else it gives an empty framer the frame, or
offers the frame the framer has built. -/
theorem FramesInv.sendStep (h : FramesInv s) (hwf : s.cfg.wellFormed = true) (hemit : s.emit = [])
    (hs : s.seq = .running op k) {f : List WireByte} (hsend : sendFrame s op k = some f) :
    FramesInv (sendStep op k f s) := by
  obtain ⟨hframer, htrace⟩ := h
  have hbuilt := hframer.frame_built hemit hs
  have hempty : awaiting s = true → s.frame = [] := fun hw => hbuilt.resolve_right (by simp [hw])
  have hask := sameFrames_takeAnswer s
  have hanswered (a : Answer) : TraceInv (busAnswer a (takeAnswer s)) :=
    (htrace.congr hask.cfg hask.trace).answered rfl rfl
  rcases sendStep_cases op k f s with ⟨hw, _, h⟩ | ⟨hw, _, h⟩ | ⟨hw, _, h⟩ | ⟨hw, hnone, h⟩ | ⟨hw, hsome, h⟩ <;> rw [h]
  · exact hask.framesInv (hempty hw) hemit htrace
  · exact SameFrames.framesInv (s := busAnswer .ok (takeAnswer s)) (.advance {}) (hask.frame.trans (hempty hw))
      (hask.emit.trans hemit) (hanswered .ok)
  · exact SameFrames.framesInv (s := busAnswer .fail (takeAnswer s)) {} (hask.frame.trans (hempty hw))
      (hask.emit.trans hemit) (hanswered .fail)
  · exact ⟨framerInv_iff.mpr (.inr ⟨op, k, [], hw, hs, hsend, hnone⟩), htrace.congr rfl rfl⟩
  · obtain ⟨_, f', hsend', hframe⟩ := hbuilt.resolve_left hsome
    have hok : FrameOk s.frame := hframe ▸ (sendFrame_good hwf hsend').frameOk
    exact ⟨framerInv_empty rfl hemit, htrace.busOffer hw hok⟩

theorem FramesInv.seqStep (h : FramesInv s) (hwf : s.cfg.wellFormed = true) (hemit : s.emit = [])
    (hs : s.seq = .running op k) (hstep : seqStep op k s = .next t) : FramesInv t := by
  cases hsend : sendFrame s op k with
  | some f =>
    rw [seqStep_send hsend] at hstep
    injection hstep with ht
    rw [← ht]
    exact h.sendStep hwf hemit hs hsend
  | none =>
    have hframe : s.frame = [] := (h.framer.frame_built hemit hs).resolve_right (by simp [hsend])
    exact (sameFrames_seqStep hsend hstep).framesInv hframe hemit h.trace

/-- Every step keeps the two invariants. -/
theorem FramesInv.step (h : FramesInv s) (hstep : step s = .next t) : FramesInv t := by
  obtain ⟨hwf, _, ⟨b, rest, he, hbyte⟩ | ⟨he, op, k, hs, hseq⟩ | ⟨_, _, _, rfl⟩ | ⟨he, hs, _, q, rest, _, hreq⟩⟩ :=
    step_cases hstep
  · rcases hbyte with ⟨htag, _, rfl⟩ | ⟨_, rfl⟩
    · exact ⟨framerInv_byte hwf h.framer he (.inl ⟨htag, rfl⟩), h.trace.congr rfl rfl⟩
    · exact ⟨framerInv_byte hwf h.framer he (.inr rfl), h.trace.congr rfl rfl⟩
  · exact h.seqStep hwf he hs hseq
  · exact h
  · have hframe := h.framer.frame_of_idle hs
    have hkeep : SameFrames s t := by
      rcases hreq with ⟨i, hd, hx⟩ | ⟨_, _, rfl⟩
      · obtain ⟨r, hr⟩ := decodeRequest_request hd
        exact { sameFrames_request hr hx with }
      · exact {}
    exact hkeep.framesInv hframe he h.trace

end Sys2Proof.Machine

/-! ### The statements -/

open Sys2Proof Sys2Proof.Machine

/-- Settles O14: an acceptance moves one request from the port to BUSY, and an end moves it from BUSY to the responses
(`requestTotal_step`). -/
theorem oneResponsePerAcceptedRequest : Obligations.OneResponsePerAcceptedRequest := by
  intro s t hinv hstep
  exact requestTotal_step hinv hstep

/-- Settles O43: by everything a step can do (`FramesInv.step`). -/
theorem stepKeepsFramesWellFormed : Obligations.StepKeepsFramesWellFormed := by
  rintro s t ⟨hframer, htrace⟩ hstep
  obtain ⟨hframer', htrace'⟩ := FramesInv.step ⟨hframer, htrace⟩ hstep
  exact ⟨hframer', htrace'⟩

end

section
/-! SUPPORT. The framebuffer operations (spec/40_framebuffer.md): what CLEAR, FILL, WRITE_PIXEL and READ_PIXEL do when the
display is on and when it is not (R67 to R71), that they send nothing (R75), and the laws of pixel writes (R74). -/

/-! ### The words that decode to a framebuffer operation (R50, R52, R62) -/

namespace Sys2Proof.Machine

variable {s : State} {q : RequestWord}

/-- A word's operation code is the one its instruction's row of the table gives. -/
theorem requestOp_of_decodeRequest {i : Instr} (h : decodeRequest q = .ok i) : requestOp q = (tableRow i).matchBits := by
  rw [decodeRequest_clear (reservedClear_of_decodeRequest h)] at h
  split_ifs at h <;> injection h with h <;> subst h <;> assumption

theorem decodeRequest_eq_clear_iff : decodeRequest q = .ok .clear ↔ reservedClear q ∧ requestOp q = 2 := by
  refine ⟨fun h => ⟨reservedClear_of_decodeRequest h, requestOp_of_decodeRequest h⟩, fun ⟨hq, hop⟩ => ?_⟩
  simp [decodeRequest_clear hq, hop]

theorem decodeRequest_eq_fill_iff : decodeRequest q = .ok .fill ↔ reservedClear q ∧ requestOp q = 3 := by
  refine ⟨fun h => ⟨reservedClear_of_decodeRequest h, requestOp_of_decodeRequest h⟩, fun ⟨hq, hop⟩ => ?_⟩
  simp [decodeRequest_clear hq, hop]

/-- Whatever operation a word asks for, a reserved bit set in it is E_ILLEGAL_OP (R62 (b), R63). -/
theorem reservedBitsFault (n : Nat) : ReservedBitsFault n := by
  intro s q rest hready _ hreserved
  rw [hready.step_error (decodeRequest_reserved hreserved), raiseFault_eq_afterFault]
  rfl

end Sys2Proof.Machine

/-! ### What each operation does, by the lifecycle state (R67 to R71, R75) -/

namespace Sys2Proof.Machine

variable {s : State}

/-- An operation's end without a fault, in the claims' words (R55). -/
theorem respond_eq_afterOk (v : Bool) (s : State) : respond (okWord v) s = afterOk v s := by
  rw [afterOk, ← okWord_eq_okResponse]
  rfl

/-- `requireReady_notReady`, in the claims' words. -/
theorem requireReady_afterFault (h : s.lc ≠ .displayOn) (u : State) :
    requireReady s u = .next (afterFault .notReady s) := by
  rw [requireReady_notReady h, raiseFault_eq_afterFault]

/-- `requireReady_displayOn` for an operation that ends with a response, in the claims' words. -/
theorem requireReady_afterOk (h : s.lc = .displayOn) (v : Bool) (u : State) :
    requireReady s (respond (okWord v) u) = .next (afterOk v u) := by
  rw [requireReady_displayOn h, respond_eq_afterOk]

theorem exec_clear_displayOn (h : s.lc = .displayOn) :
    exec .clear s = .next (afterOk false { s with fb := Memory.fill (nFb s.cfg) 0x00#8 s.fb }) :=
  requireReady_afterOk h _ _

theorem exec_fill_displayOn (h : s.lc = .displayOn) :
    exec .fill s = .next (afterOk false { s with fb := Memory.fill (nFb s.cfg) 0xFF#8 s.fb }) :=
  requireReady_afterOk h _ _

theorem exec_writePixel_displayOn (h : s.lc = .displayOn) (x y : BitVec 16) (c : Color) :
    exec (.writePixel x y (.legal c)) s =
      .next (afterOk false { s with fb := writePixelCore s.cfg s.orient s.fb x.toInt y.toInt c }) :=
  requireReady_afterOk h _ _

theorem exec_readPixel_displayOn (h : s.lc = .displayOn) (x y : BitVec 16) :
    exec (.readPixel x y) s = .next (afterOk (readPixelCore s.cfg s.orient s.fb x.toInt y.toInt) s) :=
  requireReady_afterOk h _ _

/-- The state `t` has the trace, the framer, LC, CONTRAST and PWR of `s`: nothing was sent or configured (R75). -/
def SendsNothing (s t : State) : Prop :=
  t.trace = s.trace ∧ t.frame = s.frame ∧ t.emit = s.emit ∧ t.lc = s.lc ∧ t.contrast = s.contrast ∧ t.pwr = s.pwr

theorem sendsNothing_raiseFault (c : FaultCode) (s : State) : SendsNothing s (raiseFault c s) :=
  ⟨rfl, rfl, rfl, rfl, rfl, rfl⟩

/-- A response, with the framebuffer changed or not, sends nothing. -/
theorem sendsNothing_respond (r : ResponseWord) (fb : Memory) (s : State) :
    SendsNothing s (respond r { s with fb := fb }) :=
  ⟨rfl, rfl, rfl, rfl, rfl, rfl⟩

/-- The lifecycle check always answers a next state, and sends nothing if the operation sends nothing. -/
theorem SendsNothing.requireReady {u : State} (h : SendsNothing s u) :
    ∃ t, requireReady s u = .next t ∧ SendsNothing s t := by
  by_cases hlc : s.lc = .displayOn
  · exact ⟨u, requireReady_displayOn hlc, h⟩
  · exact ⟨_, requireReady_notReady hlc u, sendsNothing_raiseFault .notReady s⟩

end Sys2Proof.Machine

/-! ### The laws of pixel writes (R70, R71, R74) -/

namespace Sys2Proof.Machine

variable {c : Config} {o : Orientation} {fb : Memory} {x y : Int}

/-- Two framebuffers in canonical form with the same bits are equal. -/
theorem fbBit_ext {m n : Memory} (hm : Memory.wf m = true) (hn : Memory.wf n = true)
    (h : ∀ a b, fbBit m a b = fbBit n a b) : m = n :=
  Memory.ext_read hm hn fun a => BitVec.eq_of_getLsbD_eq fun b _ => h a b

theorem writePixelCore_outside (h : ¬ InPanel c x y) (color : Color) : writePixelCore c o fb x y color = fb := by
  have hr : ¬ inRange c x y = true := mt inRange_iff.mp h
  simp [writePixelCore, hr]

theorem readPixelCore_inside (h : InPanel c x y) : readPixelCore c o fb x y = pixelAt c fb x y := by
  rw [readPixelCore_eq, if_pos (inRange_iff.mpr h)]

theorem readPixelCore_outside (h : ¬ InPanel c x y) : readPixelCore c o fb x y = false := by
  rw [readPixelCore_eq, if_neg (mt inRange_iff.mp h)]

/-- What is read back from a pixel is its colour applied to what it held (R74 (a)). -/
theorem readPixelCore_writePixelCore (hfb : Memory.wf fb = true) (h : InPanel c x y) (color : Color) :
    readPixelCore c o (writePixelCore c o fb x y color) x y = colorBit color (pixelAt c fb x y) := by
  rw [readPixelCore_inside h, pixelAt_write hfb c o x y color (inRange_iff.mpr h), if_pos ⟨rfl, rfl⟩]

/-- INVERT twice is no change: bit by bit, the addressed bit is negated twice (R74 (a)). -/
theorem writePixelCore_invert_twice (hfb : Memory.wf fb = true) :
    writePixelCore c o (writePixelCore c o fb x y .invert) x y .invert = fb := by
  have hfb' := wf_writePixelCore hfb c o x y .invert
  refine fbBit_ext (wf_writePixelCore hfb' c o x y .invert) hfb fun a b => ?_
  rw [fbBit, writePixelCore_bit hfb', writePixelCore_bit hfb]
  split
  · exact Bool.not_not _
  · rfl

/-- Writes of two different pixels commute: `Addr` is one-to-one, so no bit is addressed by both (R74 (c)). -/
theorem writePixelCore_comm (hfb : Memory.wf fb = true) {x' y' : Int} (hne : ¬ (x = x' ∧ y = y'))
    (color color' : Color) :
    writePixelCore c o (writePixelCore c o fb x y color) x' y' color' =
      writePixelCore c o (writePixelCore c o fb x' y' color') x y color := by
  have hwrite := wf_writePixelCore hfb c o x y color
  have hwrite' := wf_writePixelCore hfb c o x' y' color'
  refine fbBit_ext (wf_writePixelCore hwrite c o x' y' color') (wf_writePixelCore hwrite' c o x y color) fun a b => ?_
  rw [fbBit, fbBit, writePixelCore_bit hwrite, writePixelCore_bit hfb, writePixelCore_bit hwrite', writePixelCore_bit hfb]
  by_cases hbit : inRange c x y = true ∧ a = pixelIndex c x y ∧ b = pixelBit y
  · have hother : ¬ (inRange c x' y' = true ∧ a = pixelIndex c x' y' ∧ b = pixelBit y') := by
      obtain ⟨hr, ha, hb⟩ := hbit
      rintro ⟨hr', ha', hb'⟩
      exact hne (pixel_injective hr hr' (ha ▸ ha') (hb ▸ hb'))
    rw [if_neg hother, if_pos hbit, if_pos hbit, if_neg hother]
  · rw [if_neg hbit, if_neg hbit]

end Sys2Proof.Machine

/-! ### The laws of the operations (R74) -/

namespace Sys2Proof.Machine

variable {s : State} {x y x' y' : BitVec 16}

/-- READ_PIXEL after WRITE_PIXEL responds with the colour applied to the pixel's old bit (R74 (a)). -/
theorem exec_readPixel_writePixel (h : s.lc = .displayOn) (hfb : Memory.wf s.fb = true)
    (hin : InPanel s.cfg x.toInt y.toInt) (c : Color) :
    ∃ t u, exec (.writePixel x y (.legal c)) s = .next t ∧ exec (.readPixel x y) t = .next u ∧
      u.responses = t.responses ++ [okResponse (colorBit c (pixelAt s.cfg s.fb x.toInt y.toInt))] := by
  refine ⟨_, _, exec_writePixel_displayOn h x y c, exec_readPixel_displayOn (by exact h) x y, ?_⟩
  rw [← readPixelCore_writePixelCore (o := s.orient) hfb hin c]
  rfl

/-- One WRITE_PIXEL after another is one pixel write after another. -/
theorem exec_writePixel_twice (h : s.lc = .displayOn) (x y x' y' : BitVec 16) (c c' : Color) :
    ∃ t u, exec (.writePixel x y (.legal c)) s = .next t ∧ exec (.writePixel x' y' (.legal c')) t = .next u ∧
      u.fb = writePixelCore s.cfg s.orient (writePixelCore s.cfg s.orient s.fb x.toInt y.toInt c) x'.toInt y'.toInt c' :=
  ⟨_, _, exec_writePixel_displayOn h x y c, exec_writePixel_displayOn (by exact h) x' y' c', rfl⟩

/-- Two WRITE_PIXELs to different pixels, or with one colour, leave the same framebuffer in either order (R74 (c)). -/
theorem writePixelCore_comm_of_ne_or_eq (hfb : Memory.wf s.fb = true) {c c' : Color} (h : (x, y) ≠ (x', y') ∨ c = c') :
    writePixelCore s.cfg s.orient (writePixelCore s.cfg s.orient s.fb x.toInt y.toInt c) x'.toInt y'.toInt c' =
      writePixelCore s.cfg s.orient (writePixelCore s.cfg s.orient s.fb x'.toInt y'.toInt c') x.toInt y.toInt c := by
  by_cases hpixel : (x, y) = (x', y')
  · obtain ⟨rfl, rfl⟩ := Prod.mk.inj hpixel
    obtain rfl := h.resolve_left (not_not_intro rfl)
    rfl
  · refine writePixelCore_comm hfb (fun ⟨hx, hy⟩ => hpixel ?_) c c'
    rw [BitVec.toInt_inj.mp hx, BitVec.toInt_inj.mp hy]

end Sys2Proof.Machine

/-! ### The statements -/

open Sys2Proof Sys2Proof.Machine

/-- Settles O15: CLEAR is a fill of the `W * PAGES` bytes with `0x00` (`Memory.read_fill`). -/
theorem clearRule : Obligations.ClearRule := by
  refine ⟨reservedBitsFault 2, fun q => decodeRequest_eq_clear_iff, fun s h => ?_, fun s h => requireReady_afterFault h _⟩
  exact ⟨_, exec_clear_displayOn h, rfl, Memory.read_fill (nFb s.cfg) 0x00#8⟩

/-- Settles O16: FILL is a fill of the `W * PAGES` bytes with `0xFF` (`Memory.read_fill`). -/
theorem fillRule : Obligations.FillRule := by
  refine ⟨reservedBitsFault 3, fun q => decodeRequest_eq_fill_iff, fun s h => ?_, fun s h => requireReady_afterFault h _⟩
  exact ⟨_, exec_fill_displayOn h, rfl, Memory.read_fill (nFb s.cfg) 0xFF#8⟩

/-- Settles O17: what one pixel write does to each bit (`writePixelCore_bit`), and that it does nothing off the panel
(`writePixelCore_outside`). -/
theorem writePixelRule : Obligations.WritePixelRule := by
  refine ⟨reservedBitsFault 4, fun q hq hop => ?_, fun s x y c h hfb => ?_, fun s x y c h => requireReady_afterFault h _,
    fun s x y => ?_⟩
  · simp [decodeRequest_clear hq, hop]
  · refine ⟨_, exec_writePixel_displayOn h x y c, rfl, fun hin a b _ => ?_, fun hout a => ?_⟩
    · have hbit := writePixelCore_bit hfb s.cfg s.orient x.toInt y.toInt c a b
      simp only [inRange_iff.mpr hin, true_and] at hbit
      exact hbit
    · exact congrArg (Memory.read · a) (writePixelCore_outside hout c)
  · rw [exec_illegalColor rfl, raiseFault_eq_afterFault]

/-- Settles O18: READ_PIXEL responds with the pixel's bit (`readPixelCore_inside`), off the panel with 0
(`readPixelCore_outside`). -/
theorem readPixelRule : Obligations.ReadPixelRule := by
  refine ⟨reservedBitsFault 7, fun q hq hop => ?_, fun s x y h hin => ?_, fun s x y h hout => ?_,
    fun s x y h => requireReady_afterFault h _⟩
  · simp [decodeRequest_clear hq, hop]
  · rw [exec_readPixel_displayOn h, readPixelCore_inside hin]
    rfl
  · rw [exec_readPixel_displayOn h, readPixelCore_outside hout]

/-- Settles O19: the laws of the pixel writes the operations make, and what a fill leaves. -/
theorem framebufferLaws : Obligations.FramebufferLaws := by
  refine ⟨fun s x y h hfb hin => ⟨?_, ?_, ?_⟩, fun s x y c h hout => ?_, fun s x y x' y' c c' h hfb _ _ hne => ?_,
    fun s h => ⟨?_, ?_⟩⟩
  · exact exec_readPixel_writePixel h hfb hin .set
  · exact exec_readPixel_writePixel h hfb hin .clear
  · obtain ⟨t, u, ht, hu, hwrites⟩ := exec_writePixel_twice h x y x y .invert .invert
    exact ⟨t, u, ht, hu, hwrites.trans (writePixelCore_invert_twice hfb)⟩
  · exact ⟨_, exec_writePixel_displayOn h x y c, writePixelCore_outside hout c⟩
  · obtain ⟨t, u, ht, hu, hwrites⟩ := exec_writePixel_twice h x y x' y' c c'
    obtain ⟨t', u', ht', hu', hwrites'⟩ := exec_writePixel_twice h x' y' x y c' c
    refine ⟨t, u, t', u', ht, hu, ht', hu', ?_⟩
    rw [hwrites, hwrites', writePixelCore_comm_of_ne_or_eq hfb hne]
  · exact ⟨_, exec_clear_displayOn h, fun a ha => (Memory.read_fill _ _ a).trans (if_pos ha)⟩
  · exact ⟨_, exec_fill_displayOn h, fun a ha => (Memory.read_fill _ _ a).trans (if_pos ha)⟩

/-- Settles O20: the colour law of `getLsbD_applyColor`, for each colour. -/
theorem colourLaw : Obligations.ColourLaw := by
  intro v b k hb _
  exact ⟨getLsbD_applyColor .set v hb k, getLsbD_applyColor .clear v hb k, getLsbD_applyColor .invert v hb k⟩

/-- Settles O9: each of the six requests runs behind `requireReady`, and BEGIN behind its own check. -/
theorem lifecycleChecks : Obligations.LifecycleChecks := by
  refine fun s => ⟨fun h => ?_, fun h pm => ?_⟩
  · have check := requireReady_afterFault h
    exact ⟨check _, check _, fun _ _ _ => check _, fun _ _ => check _, fun _ _ _ _ _ _ => check _, check _⟩
  · rw [execBegin_refused h, raiseFault_eq_afterFault]

/-- Settles O23: each of the four ends with a response or a fault entry, and neither sends anything. -/
theorem drawingSendsNothing : Obligations.DrawingSendsNothing := by
  rintro i s (rfl | rfl | ⟨x, y, color, rfl⟩ | ⟨x, y, rfl⟩)
  · exact (sendsNothing_respond _ _ s).requireReady
  · exact (sendsNothing_respond _ _ s).requireReady
  · cases color with
    | illegal => exact ⟨_, exec_illegalColor rfl s, sendsNothing_raiseFault .illegalColor s⟩
    | legal c => exact (sendsNothing_respond _ _ s).requireReady
  · exact (sendsNothing_respond _ s.fb s).requireReady

end

section
/-! SUPPORT. DRAW_BITMAP (spec/41_bitmap.md): how its blit ends (R78, R104), what the blit leaves at each pixel (R77), and
which source bytes it reads (R78). -/

/-! ### The source bytes of a blit (R77, R78) -/

namespace Sys2Proof.Machine

variable {s : State} {m : Memory} {x y : Int} {src : Nat} {w h : Int} {color : Color}

/-- The byte of a column lies in its own row, so before the end of every later row. -/
theorem columnByte_lt {n l j c : Nat} (hl : l < j) (hc : c < n) : l * byteWidth n + c / 8 < j * byteWidth n := by
  have hbyte : c / 8 < byteWidth n := by unfold byteWidth; omega
  calc l * byteWidth n + c / 8 < l * byteWidth n + byteWidth n := by omega
    _ = (l + 1) * byteWidth n := (Nat.succ_mul l _).symm
    _ ≤ j * byteWidth n := Nat.mul_le_mul_right _ hl

/-- The last column of the last row has its byte at the end of the source extent. -/
theorem lastByte_succ {n k : Nat} (hn : 0 < n) (hk : 0 < k) :
    (k - 1) * byteWidth n + (n - 1) / 8 + 1 = k * byteWidth n := by
  rw [Nat.add_assoc, byteWidth_last hn, ← Nat.succ_mul, Nat.succ_eq_add_one, Nat.sub_add_cancel hk]

/-- A blit is drawn whole exactly when its source extent lies inside the source memory (R78). -/
theorem blit_done_iff : (∃ fb, blit s x y src w h color = .done fb) ↔ sourceInside s src w h := by
  refine ⟨fun ⟨fb, hdone⟩ => ?_, blit_done s x y src w h color⟩
  by_cases hempty : w ≤ 0 ∨ h ≤ 0
  · exact hempty.elim .inl fun hh => .inr (.inl hh)
  · rw [blit, if_neg hempty] at hdone
    have hlast := blitRows_done_inside _ _ _ _ _ _ _ _ _ _ hdone (h.toNat - 1) (w.toNat - 1) (Nat.zero_le _)
      (by omega) (by omega)
    have hend := lastByte_succ (n := w.toNat) (k := h.toNat) (by omega) (by omega)
    exact .inr (.inr (show src + h.toNat * byteWidth w.toNat ≤ s.cfg.srcSize by omega))

/-- A row reads the bytes of its columns and no other. -/
theorem blitCols_src_congr {row n i : Nat} {fb : Memory}
    (hsame : ∀ c, c < i + n → Memory.read m (row + c / 8) = Memory.read s.src (row + c / 8)) :
    blitCols { s with src := m } x y row color n i fb = blitCols s x y row color n i fb := by
  induction n generalizing i fb with
  | zero => rfl
  | succ n ih =>
    have hread : srcRead { s with src := m } (row + i / 8) = srcRead s (row + i / 8) := by
      simp only [srcRead, hsame i (by omega)]
    have hrest := fun fb => ih (i := i + 1) (fb := fb) fun c hc => hsame c (by omega)
    simp only [blitCols, hread, hrest]

/-- The rows from `j` read the bytes of the source extent and no other (R78). -/
theorem blitRows_src_congr {n k j : Nat} {fb : Memory}
    (hsame : ∀ a, src ≤ a → a < src + (j + k) * byteWidth n → Memory.read m a = Memory.read s.src a) :
    blitRows { s with src := m } x y src n color k j fb = blitRows s x y src n color k j fb := by
  induction k generalizing j fb with
  | zero => rfl
  | succ k ih =>
    have hrow : ∀ c, c < 0 + n →
        Memory.read m (src + j * byteWidth n + c / 8) = Memory.read s.src (src + j * byteWidth n + c / 8) := by
      intro c hc
      have hlt : j * byteWidth n + c / 8 < (j + (k + 1)) * byteWidth n := columnByte_lt (by omega) (by omega)
      exact hsame _ (by omega) (by omega)
    have hrest := fun fb => ih (j := j + 1) (fb := fb) fun a h1 h2 => hsame a h1 (by rwa [Nat.add_right_comm] at h2)
    simp only [blitRows, blitCols_src_congr hrow, hrest]

/-- A blit reads the bytes of its source extent and no other (R78). -/
theorem blit_src_congr
    (hsame : ∀ a, src ≤ a → a < src + h.toNat * byteWidth w.toNat → Memory.read m a = Memory.read s.src a) :
    blit { s with src := m } x y src w h color = blit s x y src w h color := by
  unfold blit
  split
  · rfl
  · exact blitRows_src_congr (by rwa [Nat.zero_add])

end Sys2Proof.Machine

/-! ### The pixels of a blit (R77) -/

namespace Sys2Proof.Machine

variable {s : State} {x y : Int} {src : Nat} {w h : Int} {px py : Nat}

/-- The blit draws the pixel: it covers it, and the pixel's source bit lies in the source memory and is set (R77). -/
abbrev BlitDraws (s : State) (x y : Int) (src : Nat) (w h : Int) (px py : Nat) : Prop :=
  Covers x y w h px py ∧ sourceAddress x y src w px py < s.cfg.srcSize ∧ sourceBit s x y src w px py = true

/-- A pixel drawn is the one at its row and its column of the blit, and it is no other's. -/
theorem blitDraws_iff : (∃ l m : Nat, 0 ≤ l ∧ l < 0 + h.toNat ∧ m < w.toNat ∧ (px : Int) = x + m ∧ (py : Int) = y + l ∧
    sourceOn s (src + l * byteWidth w.toNat) m) ↔ BlitDraws s x y src w h px py := by
  constructor
  · rintro ⟨l, m, _, hl, hm, hx, hy, hon⟩
    obtain rfl : m = ((px : Int) - x).toNat := by omega
    obtain rfl : l = ((py : Int) - y).toNat := by omega
    exact ⟨⟨by omega, by omega, by omega, by omega⟩, hon⟩
  · rintro ⟨⟨hx0, hx, hy0, hy⟩, hon⟩
    exact ⟨((py : Int) - y).toNat, ((px : Int) - x).toNat, Nat.zero_le _, by omega, by omega, by omega, by omega, hon⟩

open scoped Classical in
/-- A blit, pixel by pixel: a pixel drawn takes the colour, the others are kept (R77), also if it is cut short. -/
theorem blit_pixel (hfb : Memory.wf s.fb = true) (color : Color) (hx : px < s.cfg.width) (hy : py < s.cfg.height) :
    pixelOn s.cfg (blit s x y src w h color).fb px py =
      if BlitDraws s x y src w h px py then colorBit color (pixelOn s.cfg s.fb px py) else pixelOn s.cfg s.fb px py := by
  by_cases hempty : w ≤ 0 ∨ h ≤ 0
  · have hnone : ¬ BlitDraws s x y src w h px py := by
      rintro ⟨⟨_, _, _, _⟩, _⟩
      omega
    rw [blit, if_pos hempty, if_neg hnone, BlitResult.fb_done]
  · have hpanel : inRange s.cfg px py = true := inRange_iff.mpr (by omega)
    have hrows := blitRows_pixel s x y src w.toNat color px py hpanel h.toNat 0 s.fb hfb
    simp only [blitDraws_iff] at hrows
    rw [blit, if_neg hempty]
    exact hrows

end Sys2Proof.Machine

/-! ### How DRAW_BITMAP ends (R77, R104) -/

namespace Sys2Proof.Machine

variable {s : State}

/-- The state when DRAW_BITMAP's blit has ended: with a response if it is drawn whole, else with E_SRC_RANGE and the
pixels drawn so far (R77, R104). -/
def afterBlit (s : State) : BlitResult → State
  | .done fb => afterOk false { s with fb := fb }
  | .srcRange fb => afterFault .srcRange { s with fb := fb }

@[simp] theorem afterBlit_fb (s : State) (r : BlitResult) : (afterBlit s r).fb = r.fb := by
  cases r <;> rfl

/-- How DRAW_BITMAP ends depends on its blit alone, not on the source bytes. -/
theorem afterBlit_src (s : State) (m : Memory) (r : BlitResult) :
    afterBlit { s with src := m } r = { afterBlit s r with src := m } := by
  cases r <;> rfl

theorem exec_drawBitmap_displayOn (hlc : s.lc = .displayOn) (x y w h : BitVec 16) (src : BitVec 32) (c : Color) :
    exec (.drawBitmap x y w h src (.legal c)) s =
      .next (afterBlit s (blit s x.toInt y.toInt src.toNat w.toInt h.toInt c)) := by
  simp only [exec, execDrawBitmap, coord, srcAddress, requireReady_displayOn hlc]
  cases blit s x.toInt y.toInt src.toNat w.toInt h.toInt c with
  | done fb => exact congrArg _ (respond_eq_afterOk false _)
  | srcRange fb => exact congrArg _ (raiseFault_eq_afterFault .srcRange _)

end Sys2Proof.Machine

/-! ### The statements -/

open Sys2Proof Sys2Proof.Machine

/-- Settles O24: how the blit ends (`blit_done_iff`), and what it leaves at a pixel (`blit_pixel`) and at a bit that no
pixel maps to (`NoPixel.blit_bit`). -/
theorem drawBitmapRule : Obligations.DrawBitmapRule := by
  refine ⟨reservedBitsFault 5, fun q hq hop => ?_, fun s x y w h src c hlc hfb => ?_,
    fun s x y w h src c hlc => requireReady_afterFault hlc _, fun s x y w h src => ?_⟩
  · simp [decodeRequest_clear hq, hop]
  · refine ⟨_, exec_drawBitmap_displayOn hlc x y w h src c, fun hin => ?_, fun hout => ?_, fun px py hx hy => ?_,
      fun a b _ hpad => ?_⟩
    · obtain ⟨fb, hdone⟩ := blit_done_iff.mpr hin
      rw [hdone]
      rfl
    · cases hblit : blit s x.toInt y.toInt src.toNat w.toInt h.toInt c with
      | done fb => exact absurd (blit_done_iff.mp ⟨fb, hblit⟩) hout
      | srcRange fb => rfl
    · rw [afterBlit_fb, blit_pixel hfb c hx hy]
      exact ⟨fun hdraws => if_pos hdraws, fun hdraws => if_neg hdraws⟩
    · rw [afterBlit_fb]
      exact hpad.blit_bit hfb _ _ _ _ _ c
  · rw [exec_illegalColor rfl, raiseFault_eq_afterFault]

/-- Settles O25: the blit reads its source extent alone (`blit_src_congr`), and its end reads no source byte. -/
theorem drawBitmapReadsOnlyItsSource : Obligations.DrawBitmapReadsOnlyItsSource := by
  intro s x y w h src c m hlc hsame
  refine ⟨_, exec_drawBitmap_displayOn hlc x y w h src c, ?_⟩
  rw [exec_drawBitmap_displayOn (by exact hlc), afterBlit_src, blit_src_congr hsame]

end

section
/-! SUPPORT. The transport's answer and the framer's bytes (spec/42_framer.md R79, R80, R82): what a step does with a frame
that waits for its answer, and with a byte the table does not list. -/

namespace Sys2Proof.Machine

variable {s : State} {op : SeqOp} {k : Nat}

/-! ### A byte that is no row of the table -/

/-- The framer's next byte, if the table does not list it at its place, is copied into the frame. -/
theorem step_unlistedByte {b : WireByte} {bytes : List WireByte} (hwf : s.cfg.wellFormed = true)
    (hf : s.faultValid = false) (he : s.emit = b :: bytes) {e : DecodeError} (hd : decodeWire b = .error e) :
    step s = .next (appendByte b.byte { s with emit := bytes }) := by
  simp [step, fetch, hwf, hf, he, fetchByte, hd]

/-! ### The completion of a step, in the claims' words (R28, R89) -/

/-- Before the last step SEQ moves on, and LC is HANDSHAKE_SENT after BEGIN's last init frame. -/
theorem advance_next (h : k + 1 < stepCount s.cfg op) : advance op k s =
    { s with
      seq := .running op (k + 1),
      lc := if op = .begin ∧ k + 1 = flushBase s.cfg then .handshakeSent else s.lc } := by
  rcases advance_eq op k s with ⟨hlast, _⟩ | ⟨hlast, _⟩ | ⟨_, hop, hbase, h'⟩ | ⟨_, hbase, h'⟩
  · omega
  · omega
  · rw [h', if_pos ⟨hop, hbase⟩]
  · rw [h', if_neg hbase]

theorem advance_flush_last (h : k + 1 = stepCount s.cfg .flush) :
    advance .flush k s = afterOk false { s with seq := .idle } := by
  rcases advance_eq .flush k s with ⟨_, hop, _⟩ | ⟨_, _, h'⟩ | ⟨hlast, _⟩ | ⟨hlast, _⟩
  · cases hop
  · rw [h', respond_eq_afterOk]
  · exact absurd h hlast
  · exact absurd h hlast

theorem advance_begin_last (h : k + 1 = stepCount s.cfg .begin) :
    advance .begin k s = afterOk true { s with seq := .idle, lc := .displayOn } := by
  rcases advance_eq .begin k s with ⟨_, _, h'⟩ | ⟨_, hop, _⟩ | ⟨hlast, _⟩ | ⟨hlast, _⟩
  · rw [h', respond_eq_afterOk]
  · cases hop
  · exact absurd h hlast
  · exact absurd h hlast

/-! ### The frame that waits for its answer (R42, R82) -/

/-- At a `Send` whose frame is unanswered, the step asks the transport. -/
theorem AtStep.step_awaiting (h : AtStep s op k) {f : List WireByte} (hsend : sendFrame s op k = some f)
    (hw : awaiting s = true) : step s = .next (pollTransport op k s) := by
  obtain ⟨hwf, hf, he, hs⟩ := h
  rw [step_running hwf hf he hs, seqStep_send hsend, sendStep, if_pos hw]

/-- The state with the transport's answer taken and recorded in the last entry `e` of the trace. -/
def answered (a : Answer) (l : List BusWrite) (e : BusWrite) (s : State) : State :=
  { s with
    trace := l ++ [{ e with answer := a }],
    answers := (takeAnswer s).answers,
    draws := (takeAnswer s).draws }

theorem busAnswer_takeAnswer {l : List BusWrite} {e : BusWrite} (h : s.trace = l ++ [e]) (a : Answer) :
    busAnswer a (takeAnswer s) = answered a l e s := by
  rw [busAnswer, takeAnswer_trace, h, answerLast_append, takeAnswer_eq]
  rfl

theorem pollTransport_pending (h : transportSays s = .pending) : pollTransport op k s = takeAnswer s := by
  simp [pollTransport, h]

theorem pollTransport_fail {l : List BusWrite} {e : BusWrite} (htrace : s.trace = l ++ [e])
    (h : transportSays s = .fail) : pollTransport op k s = afterFault .bus (answered .fail l e s) := by
  simp [pollTransport, h, busAnswer_takeAnswer htrace, raiseFault_eq_afterFault]

theorem pollTransport_ok {l : List BusWrite} {e : BusWrite} (htrace : s.trace = l ++ [e])
    (h : transportSays s = .ok) : pollTransport op k s = advance op k (answered .ok l e s) := by
  simp [pollTransport, h, busAnswer_takeAnswer htrace]

end Sys2Proof.Machine

/-! ### The statements -/

open Sys2Proof Sys2Proof.Machine

/-- Settles O6: the step runs a listed byte (`step_listedByte`) and copies any other (`step_unlistedByte`). -/
theorem stepRunsTheDecodedWireByte : Obligations.StepRunsTheDecodedWireByte := by
  intro s b rest hwf hf he
  refine ⟨fun i hd => step_listedByte hwf hf he hd, ?_⟩
  rintro ⟨e, hd⟩
  exact step_unlistedByte hwf hf he hd

/-- Settles O40: the step asks the transport (`AtStep.step_awaiting`), and each answer has its own outcome; `ok` completes
the step, which is one in the middle of its list, the last of FLUSH, or the last of BEGIN. -/
theorem answerDecidesTheSend : Obligations.AnswerDecidesTheSend := by
  intro s op k f l e hat hsend htrace hpending
  have hw : awaiting s = true := (awaiting_iff s).mpr ⟨l, e, htrace, hpending⟩
  refine ⟨_, hat.step_awaiting hsend hw, fun hsays => ?_, fun hsays => ?_, fun hsays hlt => ?_,
    fun hsays hlast hop => ?_, fun hsays hlast hop => ?_⟩
  · rw [pollTransport_pending hsays]
    exact takeAnswer_eq s
  · rw [pollTransport_fail htrace hsays]
    rfl
  · rw [pollTransport_ok htrace hsays, advance_next (by exact hlt)]
    rfl
  · subst hop
    rw [pollTransport_ok htrace hsays, advance_flush_last (by exact hlast)]
    rfl
  · subst hop
    rw [pollTransport_ok htrace hsays, advance_begin_last (by exact hlast)]
    rfl

end

section
/-! SUPPORT. BEGIN (spec/43_init_sequencer.md): the init stream and its frames (R87, R88), each step before the handshake
(R84 to R86, R89, R90), and the run of the whole operation (R92). -/

/-! ### The init frames (R81, R88) -/

namespace Sys2Proof.Machine

variable {stream : List WireByte} {l : List Nat}

/-- The pieces of a partition have the lengths it names. -/
theorem map_length_cutStream (h : l.sum ≤ stream.length) : (cutStream stream l).map List.length = l := by
  induction l generalizing stream with
  | nil => rfl
  | cons n r ih =>
    rw [List.sum_cons] at h
    have hrest : r.sum ≤ (stream.drop n).length := by rw [List.length_drop]; omega
    rw [cutStream, List.map_cons, List.length_take, Nat.min_eq_left (by omega), ih hrest]

/-- The pieces of a partition of the whole stream, joined, are the stream. -/
theorem flatten_cutStream (h : l.sum = stream.length) : (cutStream stream l).flatten = stream := by
  induction l generalizing stream with
  | nil => exact (List.length_eq_zero_iff.mp h.symm).symm
  | cons n r ih =>
    rw [List.sum_cons] at h
    have hrest : r.sum = (stream.drop n).length := by rw [List.length_drop]; omega
    rw [cutStream, List.flatten_cons, ih hrest, List.take_append_drop]

variable {c : Config} (g : GeometryEntry) (pwr : PowerMode) (v : Byte)

/-- INIT_FRAMING partitions the whole init stream (R12 (f), R87). -/
theorem sum_initFraming (h : c.wellFormed = true) : c.initFraming.sum = (initStream c g pwr v).length := by
  obtain ⟨_, _, _, _, _, hsum, _⟩ := wellFormed_facts h
  rw [initStream_length, hsum]

/-- An init frame is the command tag and a piece that is not empty (R81). -/
theorem initFrame_bytes (h : c.wellFormed = true) {f : List WireByte} (hf : f ∈ initFrames c g pwr v) :
    ∃ d, frameBytes f = 0x00#8 :: d ∧ d ≠ [] := by
  obtain ⟨_, _, _, _, hpos, _⟩ := wellFormed_facts h
  obtain ⟨_, hpieces⟩ := cutStream_pieces (initStream c g pwr v) c.initFraming hpos (sum_initFraming g pwr v h).le
  obtain ⟨p, hp, rfl⟩ := List.mem_map.mp hf
  obtain ⟨hne, _⟩ := hpieces p hp
  exact ⟨frameBytes p, rfl, mt List.map_eq_nil_iff.mp hne⟩

/-- The command bytes of the init frames, joined, are the init stream (R88). -/
theorem initFrames_commandBytes (h : c.wellFormed = true) :
    ((initFrames c g pwr v).map fun f => (frameBytes f).drop 1).flatten = frameBytes (initStream c g pwr v) := by
  calc ((initFrames c g pwr v).map fun f => (frameBytes f).drop 1).flatten
      = ((cutStream (initStream c g pwr v) c.initFraming).map frameBytes).flatten := by
        rw [initFrames, List.map_map]
        rfl
    _ = frameBytes (cutStream (initStream c g pwr v) c.initFraming).flatten := List.map_flatten.symm
    _ = frameBytes (initStream c g pwr v) := by rw [flatten_cutStream (sum_initFraming g pwr v h)]

/-- An init frame is one byte, its tag, longer than its piece. -/
theorem map_length_initFrames (h : c.wellFormed = true) :
    (initFrames c g pwr v).map List.length = c.initFraming.map (· + 1) := by
  calc (initFrames c g pwr v).map List.length
      = ((cutStream (initStream c g pwr v) c.initFraming).map List.length).map (· + 1) := by
        rw [initFrames, List.map_map, List.map_map]
        rfl
    _ = c.initFraming.map (· + 1) := by rw [map_length_cutStream (sum_initFraming g pwr v h).le]

end Sys2Proof.Machine

/-! ### The steps before the handshake (R84 to R86, R89, R90) -/

namespace Sys2Proof.Machine

variable {s : State} {op : SeqOp} {k j : Nat} {b : SplashBlit} {g : GeometryEntry}

theorem exec_begin (h : s.lc = .uninitialized) (pm : PowerMode) :
    exec (.begin pm) s = .next (beginAllocate { s with pwr := pm }) := if_pos h

theorem AtStep.wellFormed (h : AtStep s op k) : s.cfg.wellFormed = true := h.1

theorem AtStep.step_eq (h : AtStep s op k) : step s = seqStep op k s := by
  obtain ⟨hwf, hf, he, hs⟩ := h
  exact step_running hwf hf he hs

/-- There is at least one init frame: the init stream has bytes to carry (R12 (f)). -/
theorem initBase_lt_flushBase {c : Config} (h : c.wellFormed = true) : initBase c < flushBase c := by
  obtain ⟨_, _, _, _, _, hsum, _⟩ := wellFormed_facts h
  have hne : c.initFraming ≠ [] := by
    intro hnil
    rw [hnil] at hsum
    cases hsum
  exact Nat.lt_add_of_pos_right (List.length_pos_iff.mpr hne)

/-- Before the handshake a completed step moves SEQ alone (R89). -/
theorem advance_beforeHandshake (hwf : s.cfg.wellFormed = true) (hk : k ≤ 2 + s.cfg.splash.length) :
    advance .begin k s = { s with seq := .running .begin (k + 1) } := by
  have hbase := initBase_lt_flushBase hwf
  have hlc : ¬ (SeqOp.begin = .begin ∧ k + 1 = flushBase s.cfg) := by
    unfold initBase at hbase
    omega
  rw [advance_next (lt_stepCount_begin hwf hk), if_neg hlc]

theorem stepKind_splash {c : Config} (h : c.splash[j]? = some b) : stepKind c .begin (2 + j) = .splash b := by
  obtain ⟨hlt, rfl⟩ := List.getElem?_eq_some_iff.mp h
  have hne : 2 + j ≠ 1 := by omega
  simp [stepKind, hne, hlt]

theorem stepKind_contrast (c : Config) : stepKind c .begin (2 + c.splash.length) = .contrast := by
  have hne : 2 + c.splash.length ≠ 1 := by omega
  simp [stepKind, hne]

/-- BEGIN goes on at step `k`, with the framebuffer `fb`. -/
def atBeginStep (fb : Memory) (k : Nat) (s : State) : State := { s with fb := fb, seq := .running .begin k }

/-- Step 1 clears the framebuffer (R86). -/
theorem AtStep.step_clear (h : AtStep s .begin 1) :
    step s = .next (atBeginStep (Memory.fill (nFb s.cfg) 0x00#8 s.fb) 2 s) := by
  rw [h.step_eq]
  exact congrArg _ (advance_beforeHandshake (s := { s with fb := Memory.fill (nFb s.cfg) 0x00#8 s.fb })
    h.wellFormed (by omega))

/-- Step `2 + j` draws the splash entry `j`, whole (R86). -/
theorem AtStep.step_splash (h : AtStep s .begin (2 + j)) (hb : s.cfg.splash[j]? = some b) :
    ∃ fb, blit s b.x b.y b.srcBase b.w b.h .set = .done fb ∧ step s = .next (atBeginStep fb (2 + j + 1) s) := by
  obtain ⟨hlt, _⟩ := List.getElem?_eq_some_iff.mp hb
  obtain ⟨fb, hdone⟩ := splash_done h.wellFormed (List.mem_of_getElem? hb) .set
  refine ⟨fb, hdone, ?_⟩
  rw [h.step_eq, seqStep, stepKind_splash hb]
  simp only [hdone]
  exact congrArg _ (advance_beforeHandshake (s := { s with fb := fb }) h.wellFormed
    (by exact Nat.add_le_add_left hlt.le 2))

/-- The last step before the handshake writes CONTRAST (R89, R90). -/
theorem AtStep.step_contrast (h : AtStep s .begin (2 + s.cfg.splash.length)) (hg : geometry s.cfg = some g) :
    step s = .next { s with contrast := contrastFor g s.pwr, seq := .running .begin (initBase s.cfg) } := by
  have hnext : 2 + s.cfg.splash.length + 1 = initBase s.cfg := by unfold initBase; omega
  rw [h.step_eq, seqStep, stepKind_contrast, ← hnext]
  simp only [hg]
  exact congrArg _ (advance_beforeHandshake (s := { s with contrast := contrastFor g s.pwr }) h.wellFormed le_rfl)

/-- The row GEOMETRY_TABLE gives for the panel is a row of its size (R11). -/
theorem geometry_row {c : Config} (h : geometry c = some g) :
    g ∈ c.geometryTable ∧ g.width = c.width ∧ g.height = c.height :=
  ⟨List.mem_of_find?_eq_some h, of_decide_eq_true (List.find?_some h :)⟩

/-- A 128x64 row has the two contrasts of R58, if the configuration is well-formed. -/
theorem contrasts_128x64 {c : Config} (hwf : c.wellFormed = true) (hg : g ∈ c.geometryTable) (hw : g.width = 128)
    (hh : g.height = 64) : g.contrastInternal = 0xCF#8 ∧ g.contrastExternal = 0x9F#8 := by
  simp only [Config.wellFormed, Bool.and_eq_true] at hwf
  obtain ⟨⟨⟨⟨⟨_, hcontrasts⟩, _⟩, _⟩, _⟩, _⟩ := hwf
  exact (Config.contrastsOk_iff c).mp hcontrasts g hg hw hh

end Sys2Proof.Machine

/-! ### The faults of BEGIN (R84) -/

namespace Sys2Proof.Machine

variable {s t : State} {op : SeqOp} {k : Nat}

@[simp] theorem advance_faultValid (op : SeqOp) (k : Nat) (s : State) : (advance op k s).faultValid = s.faultValid := by
  rcases advance_eq op k s with ⟨_, _, h⟩ | ⟨_, _, h⟩ | ⟨_, _, _, h⟩ | ⟨_, _, h⟩ <;> rw [h] <;> rfl

@[simp] theorem beginAllocate_faultValid (s : State) : (beginAllocate s).faultValid = s.faultValid := by
  unfold beginAllocate
  split <;> simp

/-- A `Send` faults only when the transport says `fail` (R82). -/
theorem sendStep_fault (hf : s.faultValid = false) {f : List WireByte} (h : (sendStep op k f s).faultValid = true) :
    (sendStep op k f s).faultCode = .bus := by
  rcases sendStep_cases op k f s with ⟨_, _, h'⟩ | ⟨_, _, h'⟩ | ⟨_, _, h'⟩ | ⟨_, _, h'⟩ | ⟨_, _, h'⟩ <;>
    rw [h'] at h ⊢
  · simp [hf] at h
  · simp [hf] at h
  · rfl
  · simp [hf] at h
  · simp [hf] at h

/-- A step of an operation under a well-formed configuration faults with E_BUS alone (R12 (e), R82). -/
theorem seqStep_fault (hwf : s.cfg.wellFormed = true) (hf : s.faultValid = false) (hstep : seqStep op k s = .next t)
    (h : t.faultValid = true) : t.faultCode = .bus := by
  rcases seqStep_cases hstep with ⟨_, _, rfl⟩ | ⟨_, _, _, fb, rfl, _⟩ | ⟨_, _, _, b, hb, fb, hrange, _⟩ |
    ⟨_, _, g, _, rfl⟩ | ⟨f, _, _, _, rfl⟩
  · simp [hf] at h
  · simp [hf] at h
  · obtain ⟨fb', hdone⟩ := splash_done hwf hb .set
    rw [hdone] at hrange
    cases hrange
  · simp [hf] at h
  · exact sendStep_fault hf h

end Sys2Proof.Machine

/-! ### A run of frames (R82, R89, R95) -/

namespace Sys2Proof.Machine

variable {s : State} {op : SeqOp} {k : Nat} {f : List WireByte} {fs : List (List WireByte)} {ans : List Answer}

/-- The block is at step `k` of an operation, with the framer empty and no frame unanswered. -/
structure AtSend (s : State) (op : SeqOp) (k : Nat) : Prop where
  atStep : AtStep s op k
  frame : s.frame = []
  notAwaiting : awaiting s = false

/-- The state when the frames `fs` have gone out, each answered `ok`, and the transport will say `ans` next. -/
def afterFrames (fs : List (List WireByte)) (ans : List Answer) (s : State) : State :=
  { s with trace := s.trace ++ sentOk s.cfg fs, answers := ans }

theorem afterFrames_cons (f : List WireByte) (fs : List (List WireByte)) (ans ans' : List Answer) (s : State) :
    afterFrames fs ans (afterFrames [f] ans' s) = afterFrames (f :: fs) ans s := by
  simp [afterFrames, sentOk]

/-- The state at the next step of the operation, with LC HANDSHAKE_SENT after BEGIN's last init frame (R28, R89). -/
def atNextStep (op : SeqOp) (k : Nat) (s : State) : State :=
  { s with
    seq := .running op (k + 1),
    lc := if op = .begin ∧ k + 1 = flushBase s.cfg then .handshakeSent else s.lc }

theorem advance_eq_atNextStep (h : k + 1 < stepCount s.cfg op) : advance op k s = atNextStep op k s := advance_next h

theorem afterFrames_atNextStep (fs : List (List WireByte)) (ans : List Answer) (op : SeqOp) (k : Nat) (s : State) :
    afterFrames fs ans (atNextStep op k s) = atNextStep op k (afterFrames fs ans s) := rfl

/-- One frame goes out and is answered `ok`: the step is complete. -/
theorem AtSend.reaches_advance (h : AtSend s op k) (hsend : sendFrame s op k = some f) (ha : s.answers = .ok :: ans) :
    Reaches s (advance op k (afterFrames [f] ans s)) := by
  obtain ⟨⟨hwf, hf, he, hs⟩, hframe, hw⟩ := h
  exact runs_send hwf hf he hframe hw hs hsend ha

theorem AtSend.next (h : AtSend s op k) (f : List WireByte) (ans : List Answer) :
    AtSend (atNextStep op k (afterFrames [f] ans s)) op (k + 1) := by
  obtain ⟨⟨hwf, hf, he, _⟩, hframe, _⟩ := h
  have htrace : (atNextStep op k (afterFrames [f] ans s)).trace =
      s.trace ++ [⟨s.cfg.busAddr, s.cfg.busChannel, frameBytes f, .ok⟩] := rfl
  exact ⟨⟨hwf, hf, he, rfl⟩, hframe, awaiting_of_trace htrace⟩

/-- The end of an operation overwrites what the step before it did to SEQ, and to LC in BEGIN. -/
theorem finish_atNextStep (op : SeqOp) (k : Nat) (s : State) : finish op (atNextStep op k s) = finish op s := by
  cases op with
  | begin => rfl
  | flush => simp [finish, atNextStep]

theorem advance_last (h : k + 1 = stepCount s.cfg op) : advance op k s = finish op s := by
  cases op with
  | begin => rw [advance_begin_last h]; exact (respond_eq_afterOk true _).symm
  | flush => rw [advance_flush_last h]; exact (respond_eq_afterOk false _).symm

/-- From step `k` on, all the frames of the operation go out, if each is answered `ok`; then the operation ends. -/
theorem AtSend.reaches_finish (h : AtSend s op k) (hk : k < stepCount s.cfg op)
    (hlast : k + fs.length = stepCount s.cfg op) (hsend : ∀ i f, fs[i]? = some f → sendFrame s op (k + i) = some f)
    (ha : s.answers = List.replicate fs.length .ok ++ ans) : Reaches s (finish op (afterFrames fs ans s)) := by
  induction fs generalizing s k with
  | nil => exact absurd hlast hk.ne
  | cons f fs ih =>
    have hone := h.reaches_advance (hsend 0 f rfl) ha
    rw [List.length_cons] at hlast
    by_cases hmore : k + 1 < stepCount s.cfg op
    · rw [advance_eq_atNextStep (by exact hmore)] at hone
      have hlast' : k + 1 + fs.length = stepCount s.cfg op := by omega
      have hsend' : ∀ i f, fs[i]? = some f → sendFrame s op (k + 1 + i) = some f := fun i f' hi => by
        rw [Nat.add_assoc, Nat.add_comm 1]
        exact hsend (i + 1) f' hi
      have hrest := ih (h.next f _) hmore hlast' hsend' rfl
      rw [afterFrames_atNextStep, finish_atNextStep, afterFrames_cons] at hrest
      exact hone.trans hrest
    · obtain rfl : fs = [] := List.eq_nil_of_length_eq_zero (by omega)
      rwa [advance_last (by exact hlast)] at hone

end Sys2Proof.Machine

/-! ### The run of BEGIN (R89, R92) -/

namespace Sys2Proof.Machine

variable {s u : State} {j : Nat} {g : GeometryEntry} {ans : List Answer}

section SameLaunch

variable (hcfg : u.cfg = s.cfg) (hsrc : u.src = s.src) (horient : u.orient = s.orient)
include hcfg hsrc horient

/-! A blit of a given framebuffer reads the configuration, the source memory and ORIENT alone. -/

theorem blitCols_congr (x y : Int) (row : Nat) (color : Color) (n i : Nat) (fb : Memory) :
    blitCols u x y row color n i fb = blitCols s x y row color n i fb := by
  induction n generalizing i fb with
  | zero => rfl
  | succ n ih => simp only [blitCols, srcRead, hcfg, hsrc, horient, ih]

theorem blitRows_congr (x y : Int) (src w : Nat) (color : Color) (n j : Nat) (fb : Memory) :
    blitRows u x y src w color n j fb = blitRows s x y src w color n j fb := by
  induction n generalizing j fb with
  | zero => rfl
  | succ n ih => simp only [blitRows, blitCols_congr hcfg hsrc horient, ih]

theorem splashed_congr (l : List SplashBlit) (fb : Memory) : splashed u l fb = splashed s l fb := by
  have hblit (fb : Memory) (b : SplashBlit) : blit { u with fb := fb } b.x b.y b.srcBase b.w b.h .set =
      blit { s with fb := fb } b.x b.y b.srcBase b.w b.h .set := by
    simp only [blit, blitRows_congr (u := { u with fb := fb }) (s := { s with fb := fb }) hcfg hsrc horient]
  induction l generalizing fb with
  | nil => rfl
  | cons b r ih => simp only [splashed, hblit, ih]

end SameLaunch

/-- One splash entry drawn, and then the others. -/
theorem splashed_cons {b : SplashBlit} {fb : Memory} (r : List SplashBlit)
    (hdone : blit s b.x b.y b.srcBase b.w b.h .set = .done fb) : splashed s (b :: r) s.fb = splashed s r fb := by
  rw [splashed, hdone]

theorem splashed_atBeginStep (s : State) (fb : Memory) (k : Nat) (l : List SplashBlit) (m : Memory) :
    splashed (atBeginStep fb k s) l m = splashed s l m :=
  splashed_congr (u := atBeginStep fb k s) (s := s) rfl rfl rfl l m

theorem atStep_atBeginStep {k : Nat} (h : AtStep s .begin k) (fb : Memory) (k' : Nat) :
    AtStep (atBeginStep fb k' s) .begin k' := by
  obtain ⟨hwf, hf, he, _⟩ := h
  exact ⟨hwf, hf, he, rfl⟩

/-- From splash entry `j` on, the entries left are drawn in order (R86). -/
theorem AtStep.reaches_splashed (h : AtStep s .begin (2 + j)) {l : List SplashBlit} (hl : s.cfg.splash.drop j = l)
    (hj : j ≤ s.cfg.splash.length) :
    Reaches s (atBeginStep (splashed s l s.fb) (2 + s.cfg.splash.length) s) := by
  induction l generalizing s j with
  | nil =>
    obtain ⟨_, _, _, hs⟩ := h
    obtain rfl : j = s.cfg.splash.length := le_antisymm hj (List.drop_eq_nil_iff.mp hl)
    rw [atBeginStep, ← hs]
    exact Reaches.refl s
  | cons b r ih =>
    have hb : s.cfg.splash[j]? = some b := by rw [← List.head?_drop, hl]; rfl
    have hr : s.cfg.splash.drop (j + 1) = r := by rw [← List.tail_drop, hl]; rfl
    obtain ⟨hlt, _⟩ := List.getElem?_eq_some_iff.mp hb
    obtain ⟨fb, hdone, hstep⟩ := h.step_splash hb
    have hrest := ih (atStep_atBeginStep h fb (2 + (j + 1))) hr hlt
    rw [splashed_atBeginStep] at hrest
    rw [splashed_cons r hdone]
    exact Reaches.step hstep hrest

/-- The state at BEGIN's first init frame, from the one at step 1: the framebuffer cleared, the splash drawn, and CONTRAST
written (R86, R89, R90). -/
def atHandshake (g : GeometryEntry) (s : State) : State :=
  { s with
    fb := splashed s s.cfg.splash (Memory.fill (nFb s.cfg) 0x00#8 s.fb),
    contrast := contrastFor g s.pwr,
    seq := .running .begin (initBase s.cfg) }

theorem atStep_atHandshake {k : Nat} (h : AtStep s .begin k) (g : GeometryEntry) :
    AtStep (atHandshake g s) .begin (initBase s.cfg) := by
  obtain ⟨hwf, hf, he, _⟩ := h
  exact ⟨hwf, hf, he, rfl⟩

theorem AtStep.reaches_handshake (h : AtStep s .begin 1) (hg : geometry s.cfg = some g) :
    Reaches s (atHandshake g s) := by
  have hcleared := atStep_atBeginStep h (Memory.fill (nFb s.cfg) 0x00#8 s.fb) (2 + 0)
  have hsplash := hcleared.reaches_splashed rfl (Nat.zero_le _)
  rw [splashed_atBeginStep] at hsplash
  have hdrawn := atStep_atBeginStep h (splashed s s.cfg.splash (Memory.fill (nFb s.cfg) 0x00#8 s.fb))
    (2 + s.cfg.splash.length)
  have hcontrast := hdrawn.step_contrast hg
  exact Reaches.step h.step_clear (hsplash.trans (Reaches.step hcontrast (Reaches.refl _)))

/-- The frames of BEGIN: the init frames, then one flush (R89, R92). -/
def beginFrames (s : State) (g : GeometryEntry) : List (List WireByte) :=
  initFrames s.cfg g s.pwr s.contrast ++ flushFrames s.cfg s.fb

theorem length_beginFrames (hwf : s.cfg.wellFormed = true) (g : GeometryEntry) :
    (beginFrames s g).length = s.cfg.initFraming.length + 2 * pages s.cfg := by
  obtain ⟨hlength, _⟩ := initFrames_facts hwf g s.pwr s.contrast
  simp [beginFrames, hlength, flushFrames]

theorem stepKind_initFrame_of_lt {c : Config} {i : Nat} (h : i < c.initFraming.length) :
    stepKind c .begin (initBase c + i) = .initFrame i := by
  have hlt : initBase c + i < flushBase c := by unfold flushBase; omega
  have hbase : initBase c = 3 + c.splash.length := rfl
  simp only [stepKind]
  rw [if_neg (by omega), if_neg (by omega), if_neg (by omega), if_neg (by omega), if_pos hlt, Nat.add_sub_cancel_left]

theorem stepKind_flushFrame_of_lt {c : Config} {m : Nat} (h : m < 2 * pages c) :
    stepKind c .begin (flushBase c + m) = .flushFrame m := by
  have hlt : flushBase c + m < stepCount c .begin := by simp only [stepCount]; omega
  have hbase : flushBase c = 3 + c.splash.length + c.initFraming.length := rfl
  simp only [stepKind]
  rw [if_neg (by omega), if_neg (by omega), if_neg (by omega), if_neg (by omega), if_neg (by omega), if_pos hlt,
    Nat.add_sub_cancel_left]

/-- Frame `m` of the page-write sequence (R95). -/
theorem getElem?_flushFrames {c : Config} {fb : Memory} {m : Nat} {f : List WireByte} :
    (flushFrames c fb)[m]? = some f ↔ m < 2 * pages c ∧ flushFrame c fb m = f := by
  simp [flushFrames, List.getElem?_eq_some_iff]

/-- Step `i` from the first init frame on sends frame `i` of BEGIN (R89). -/
theorem sendFrame_begin (hwf : s.cfg.wellFormed = true) (hg : geometry s.cfg = some g) {i : Nat} {f : List WireByte}
    (hi : (beginFrames s g)[i]? = some f) : sendFrame s .begin (initBase s.cfg + i) = some f := by
  obtain ⟨hlength, _⟩ := initFrames_facts hwf g s.pwr s.contrast
  by_cases hinit : i < s.cfg.initFraming.length
  · rw [beginFrames, List.getElem?_append_left (by omega)] at hi
    rw [sendFrame, stepKind_initFrame_of_lt hinit]
    simp [hg, hi]
  · rw [beginFrames, List.getElem?_append_right (by omega), hlength] at hi
    obtain ⟨hm, rfl⟩ := getElem?_flushFrames.mp hi
    have hstep : initBase s.cfg + i = flushBase s.cfg + (i - s.cfg.initFraming.length) := by unfold flushBase; omega
    rw [sendFrame, hstep, stepKind_flushFrame_of_lt hm]

/-- From the first init frame to the end of BEGIN (R89, R92, R93). -/
theorem AtSend.reaches_displayOn (h : AtSend s .begin (initBase s.cfg)) (hg : geometry s.cfg = some g)
    (ha : s.answers = List.replicate (s.cfg.initFraming.length + 2 * pages s.cfg) .ok ++ ans) :
    Reaches s (afterOk true { afterFrames (beginFrames s g) ans s with lc := .displayOn, seq := .idle }) := by
  have hwf := h.atStep.wellFormed
  have hlength := length_beginFrames hwf g
  have hbase := initBase_lt_flushBase hwf
  have hcount : stepCount s.cfg .begin = flushBase s.cfg + 2 * pages s.cfg := rfl
  have hrun := h.reaches_finish (fs := beginFrames s g) (ans := ans) (by omega)
    (by rw [hlength, hcount, flushBase, Nat.add_assoc]) (fun i f hi => sendFrame_begin hwf hg hi) (by rw [hlength, ha])
  rwa [finish, respond_eq_afterOk] at hrun

/-- The state after the acceptance of BEGIN with the allocation succeeding (R84, R85). -/
def afterAccept (rest : List RequestWord) (pm : PowerMode) (al : List Bool) (s : State) : State :=
  { s with
    offered := rest, busy := true, pwr := pm, fbValid := true, lc := .bufferAllocated, allocs := al,
    seq := .running .begin 1 }

variable {q : RequestWord} {rest : List RequestWord} {pm : PowerMode} {al : List Bool}

theorem Ready.seq_idle (h : Ready s q rest) : s.seq = .idle := by
  obtain ⟨_, _, _, hs, _⟩ := h
  exact hs

theorem Ready.step_begin (h : Ready s q rest) (hd : decodeRequest q = .ok (.begin pm)) (hlc : s.lc = .uninitialized)
    (hal : s.allocs = true :: al) : step s = .next (afterAccept rest pm al s) := by
  obtain ⟨hok, htake⟩ := takeAlloc_cons (s := { s with offered := rest, busy := true, pwr := pm }) hal
  rw [h.step_ok hd, exec_begin (by exact hlc), beginAllocate_success hok, htake]
  rfl

theorem Ready.atStep_afterAccept (h : Ready s q rest) (pm : PowerMode) (al : List Bool) :
    AtStep (afterAccept rest pm al s) .begin 1 := by
  obtain ⟨hwf, hf, he, _⟩ := h
  exact ⟨hwf, hf, he, rfl⟩

theorem splashed_afterAccept (s : State) (l : List SplashBlit) (m : Memory) :
    splashed (afterAccept rest pm al s) l m = splashed s l m :=
  splashed_congr (u := afterAccept rest pm al s) (s := s) rfl rfl rfl l m

theorem sentOk_append (c : Config) (fs fs' : List (List WireByte)) :
    sentOk c (fs ++ fs') = sentOk c fs ++ sentOk c fs' := List.map_append

end Sys2Proof.Machine

/-! ### The statements -/

open Sys2Proof Sys2Proof.Machine

/-- Settles O26: BEGIN's acceptance is its allocation (`exec_begin`), which succeeds or fails. -/
theorem beginStartsOrReportsFailure : Obligations.BeginStartsOrReportsFailure := by
  refine ⟨fun q hq hop => ?_, fun s pm hlc => ⟨_, exec_begin hlc pm, fun ha => ?_, fun ha => ?_⟩, fun s pm hlc => ?_⟩
  · rw [decodeRequest_clear hq, if_pos hop]
    rfl
  · rw [beginAllocate_success (by exact ha), takeAlloc_eq]
  · rw [beginAllocate_failure (by exact ha), respond_eq_afterOk, takeAlloc_eq]
    rfl
  · rw [execBegin_refused hlc, raiseFault_eq_afterFault]

/-- Settles O27: the stream written out, with the two bytes that depend on the power mode by its cases. -/
theorem initStreamBytes : Obligations.InitStreamBytes := by
  intro c g pwr v
  cases pwr <;> rfl

/-- Settles O28: INIT_FRAMING is a partition of the init stream into pieces that are not empty. -/
theorem initFramesCarryTheStream : Obligations.InitFramesCarryTheStream := by
  intro c g pwr v hwf
  obtain ⟨hlength, _⟩ := initFrames_facts hwf g pwr v
  refine ⟨hlength, fun f hf => initFrame_bytes g pwr v hwf hf, initFrames_commandBytes g pwr v hwf, fun hdefault => ?_⟩
  rw [map_length_initFrames g pwr v hwf, hdefault]
  rfl

/-- Settles O29: each step before the handshake by its own lemma. -/
theorem beginStepsBeforeTheHandshake : Obligations.BeginStepsBeforeTheHandshake := by
  refine ⟨fun s hat => ⟨_, hat.step_clear, rfl, Memory.read_fill _ _⟩, fun s j b hat hb => ?_, fun s hat => ?_⟩
  · rw [show 3 + j = 2 + j + 1 by omega]
    exact hat.step_splash hb
  · obtain ⟨_, _, _, _, _, _, _, g, hg⟩ := wellFormed_facts hat.wellFormed
    obtain ⟨hmem, hw, hh⟩ := geometry_row hg
    refine ⟨g, hmem, hw, hh, ?_⟩
    rw [hat.step_contrast hg]
    cases s.pwr <;> rfl

/-- Settles O30: the row the step reads is a 128x64 row, and a well-formed table gives those the contrasts of R58. -/
theorem contrastOfThe128x64Panel : Obligations.ContrastOfThe128x64Panel := by
  intro s hat hw hh
  obtain ⟨_, _, _, _, _, _, _, g, hg⟩ := wellFormed_facts hat.wellFormed
  obtain ⟨hmem, hgw, hgh⟩ := geometry_row hg
  obtain ⟨hint, hext⟩ := contrasts_128x64 hat.wellFormed hmem (hgw.trans hw) (hgh.trans hh)
  refine ⟨_, hat.step_contrast hg, fun hp => ?_, fun hp => ?_⟩
  · simp [hp, contrastFor, hint]
  · simp [hp, contrastFor, hext]

/-- Settles O31: the acceptance, the steps up to the handshake (`AtStep.reaches_handshake`), and the frames to the end
(`AtSend.reaches_displayOn`). -/
theorem beginCompletes : Obligations.BeginCompletes := by
  intro s q rest pm g al ans hready hd hframe hw hlc hg hal hans
  refine ⟨_, rfl, fun hnone a ha => ?_, ?_⟩
  · rw [hnone, splashed, Memory.read_fill, if_pos ha]
  · have haccept := hready.step_begin hd hlc hal
    have hat := hready.atStep_afterAccept pm al
    have hsend : AtSend (atHandshake g (afterAccept rest pm al s)) .begin (initBase s.cfg) :=
      ⟨atStep_atHandshake hat g, hframe, hw⟩
    have hend := hsend.reaches_displayOn hg hans
    rw [afterFrames, beginFrames, sentOk_append, ← List.append_assoc, ← hready.seq_idle] at hend
    have hrun := Reaches.step haccept ((hat.reaches_handshake hg).trans hend)
    rw [atHandshake, splashed_afterAccept] at hrun
    exact hrun

/-- Settles O32: a splash is drawn whole and a `Send` faults with E_BUS (`seqStep_fault`). -/
theorem beginFaultsOnlyOnTheBus : Obligations.BeginFaultsOnlyOnTheBus := by
  intro s t k hat hstep hfault
  rw [hat.step_eq] at hstep
  obtain ⟨hwf, hf, _, _⟩ := hat
  exact seqStep_fault hwf hf hstep hfault

end

section
/-! SUPPORT. FLUSH (spec/44_flush.md): the frames of the page-write sequence on the wire (R95 to R98), the run of a whole
flush (R94), and what its steps keep (R45). -/

/-! ### The frames of the page-write sequence (R95 to R98) -/

namespace Sys2Proof.Machine

variable (c : Config) (fb : Memory) (p : Nat)

@[simp] theorem flushFrame_even : flushFrame c fb (2 * p) = pageSelectFrame c p := by
  rw [flushFrame, if_pos (Nat.mul_mod_right 2 p), Nat.mul_div_cancel_left p two_pos]

@[simp] theorem flushFrame_odd : flushFrame c fb (2 * p + 1) = pageDataFrame c fb p := by
  rw [flushFrame, if_neg (by omega), show (2 * p + 1) / 2 = p by omega]

theorem frameBytes_pageSelectFrame : frameBytes (pageSelectFrame c p) =
    [0x00#8, 0xB0#8 ||| (BitVec.ofNat 4 p).setWidth 8, c.colLow, 0x10#8] := rfl

theorem frameBytes_pageDataFrame : frameBytes (pageDataFrame c fb p) =
    0x40#8 :: (List.range c.width).map fun col => Memory.read fb (p * c.width + col) := by
  simp [frameBytes, pageDataFrame, dataFrame, pageBytes]

@[simp] theorem length_pageSelectFrame : (pageSelectFrame c p).length = 4 := rfl

@[simp] theorem length_pageDataFrame : (pageDataFrame c fb p).length = 1 + c.width := by
  simp [pageDataFrame, dataFrame, pageBytes, Nat.add_comm]

@[simp] theorem length_flushFrames : (flushFrames c fb).length = 2 * pages c := by simp [flushFrames]

/-- The two frames of each of the first `n` pages have `4 + (1 + W)` bytes (R98). -/
theorem sum_length_flushFrame (n : Nat) :
    ((List.range (2 * n)).map fun m => (flushFrame c fb m).length).sum = (4 + (1 + c.width)) * n := by
  induction n with
  | zero => rfl
  | succ n ih =>
    rw [show 2 * (n + 1) = 2 * n + 1 + 1 by omega, List.range_succ, List.range_succ]
    simp [ih, Nat.mul_succ]

end Sys2Proof.Machine

/-! ### The run of FLUSH (R94, R95) -/

namespace Sys2Proof.Machine

variable {s : State} {q : RequestWord} {rest : List RequestWord} {ans : List Answer}

theorem decodeRequest_eq_flush_iff : decodeRequest q = .ok .flush ↔ reservedClear q ∧ requestOp q = 6 := by
  refine ⟨fun h => ⟨reservedClear_of_decodeRequest h, requestOp_of_decodeRequest h⟩, fun ⟨hq, hop⟩ => ?_⟩
  simp [decodeRequest_clear hq, hop]

theorem exec_flush (h : s.lc = .displayOn) : exec .flush s = .next { s with seq := .running .flush 0 } :=
  requireReady_displayOn h

/-- Step `m` of FLUSH sends frame `m` of the page-write sequence (R95). -/
theorem sendFrame_flush {m : Nat} {f : List WireByte} (hm : (flushFrames s.cfg s.fb)[m]? = some f) :
    sendFrame s .flush m = some f := by
  obtain ⟨hlt, rfl⟩ := getElem?_flushFrames.mp hm
  simp [sendFrame, stepKind, hlt]

/-- From step 0 to the end of FLUSH (R94, R95). -/
theorem AtSend.reaches_flushed (h : AtSend s .flush 0) (ha : s.answers = List.replicate (2 * pages s.cfg) .ok ++ ans) :
    Reaches s (afterOk false { afterFrames (flushFrames s.cfg s.fb) ans s with seq := .idle }) := by
  have hcount : stepCount s.cfg .flush = 2 * pages s.cfg := rfl
  have hpages := pages_pos h.atStep.wellFormed
  have hrun := h.reaches_finish (fs := flushFrames s.cfg s.fb) (ans := ans) (by omega)
    (by rw [length_flushFrames, hcount, Nat.zero_add]) (fun m f hm => by rw [Nat.zero_add]; exact sendFrame_flush hm)
    (by rw [length_flushFrames, ha])
  rwa [finish, respond_eq_afterOk] at hrun

/-- The state after the acceptance of FLUSH: the block is busy at step 0 (R94, R95). -/
def flushAccepted (rest : List RequestWord) (s : State) : State :=
  { s with offered := rest, busy := true, seq := .running .flush 0 }

theorem Ready.step_flush (h : Ready s q rest) (hd : decodeRequest q = .ok .flush) (hlc : s.lc = .displayOn) :
    step s = .next (flushAccepted rest s) := by
  rw [h.step_ok hd, exec_flush (by exact hlc)]
  rfl

theorem Ready.atSend_flushAccepted (h : Ready s q rest) (hframe : s.frame = []) (hw : awaiting s = false) :
    AtSend (flushAccepted rest s) .flush 0 := by
  obtain ⟨hwf, hf, he, _⟩ := h
  exact ⟨⟨hwf, hf, he, rfl⟩, hframe, hw⟩

end Sys2Proof.Machine

/-! ### The framebuffer during a flush (R96, R45) -/

namespace Sys2Proof.Machine

variable {s t : State} {k : Nat}

@[simp] theorem advance_fb (op : SeqOp) (k : Nat) (s : State) : (advance op k s).fb = s.fb := by
  rcases advance_eq op k s with ⟨_, _, h⟩ | ⟨_, _, h⟩ | ⟨_, _, _, h⟩ | ⟨_, _, h⟩ <;> rw [h] <;> rfl

/-- A `Send` reads the framebuffer and never writes it, whatever the transport answers (R82). -/
@[simp] theorem sendStep_fb (op : SeqOp) (k : Nat) (f : List WireByte) (s : State) : (sendStep op k f s).fb = s.fb := by
  rcases sendStep_cases op k f s with ⟨_, _, h⟩ | ⟨_, _, h⟩ | ⟨_, _, h⟩ | ⟨_, _, h⟩ | ⟨_, _, h⟩ <;> rw [h] <;> simp

/-- While FLUSH runs, a step copies a byte into the frame or is part of a `Send` (R95). -/
theorem step_flush_fb (hs : s.seq = .running .flush k) (h : step s = .next t) : t.fb = s.fb := by
  obtain ⟨_, _, hbyte | ⟨_, op, k', hs', hseq⟩ | ⟨_, hidle, _⟩ | ⟨_, hidle, _⟩⟩ := step_cases h
  · obtain ⟨b, rest, _, ⟨_, _, rfl⟩ | ⟨_, rfl⟩⟩ := hbyte <;> rfl
  · obtain ⟨rfl, rfl⟩ := Seq.running.inj (hs.symm.trans hs')
    rcases seqStep_cases hseq with ⟨⟨⟩, _⟩ | ⟨⟨⟩, _⟩ | ⟨⟨⟩, _⟩ | ⟨⟨⟩, _⟩ | ⟨f, _, _, _, rfl⟩
    exact sendStep_fb .flush k f s
  · simp [hs] at hidle
  · simp [hs] at hidle

end Sys2Proof.Machine

/-! ### The statements -/

open Sys2Proof Sys2Proof.Machine

/-- Settles O33: the words that decode to FLUSH, and the lifecycle check it shares with the other requests. -/
theorem flushStarts : Obligations.FlushStarts :=
  ⟨fun _ => decodeRequest_eq_flush_iff, fun _ => exec_flush, fun _ hlc => requireReady_afterFault hlc _⟩

/-- Settles O34: frame `2p` is page `p`'s page-select frame and frame `2p + 1` its data frame; the bytes in all by
induction on the pages (`sum_length_flushFrame`). -/
theorem flushFramesOnTheWire : Obligations.FlushFramesOnTheWire := by
  intro c fb
  refine ⟨length_flushFrames c fb, fun p hp => ⟨?_, ?_⟩, ?_⟩
  · rw [getElem?_flushFrames.mpr ⟨by omega, flushFrame_even c fb p⟩]
    exact congrArg some (frameBytes_pageSelectFrame c p)
  · rw [getElem?_flushFrames.mpr ⟨by omega, flushFrame_odd c fb p⟩]
    exact congrArg some (frameBytes_pageDataFrame c fb p)
  · rw [flushFrames, List.map_map]
    exact sum_length_flushFrame c fb (pages c)

/-- Settles O35: the acceptance (`Ready.step_flush`), and the frames to the end (`AtSend.reaches_flushed`). -/
theorem flushCompletes : Obligations.FlushCompletes := by
  intro s q rest ans hready hd hframe hw hlc hans
  have hend := (hready.atSend_flushAccepted hframe hw).reaches_flushed hans
  rw [afterFrames, ← hready.seq_idle] at hend
  exact Reaches.step (hready.step_flush hd hlc) hend

/-- Settles O36: the framebuffer by `step_flush_fb`; the context by `onlyBeginWritesTheContext`, for a running flush is
not BEGIN and accepts no request. -/
theorem flushKeepsTheFramebuffer : Obligations.FlushKeepsTheFramebuffer := by
  intro s t k hs hstep
  have hbegin : ∀ k', s.seq ≠ .running .begin k' := by simp [hs]
  have haccept : ∀ q rest pm, Ready s q rest → decodeRequest q ≠ .ok (.begin pm) := fun q rest pm hready => by
    have hidle := hready.seq_idle
    simp [hs] at hidle
  obtain ⟨hlc, hvalid, hcontrast, hpwr⟩ := onlyBeginWritesTheContext s t hstep hbegin haccept
  exact ⟨step_flush_fb hs hstep, hlc, hcontrast, hpwr, hvalid⟩

end

section
/-! SUPPORT. Faults (spec/60_exceptions.md): every way a step can record one, what the fault entry keeps (R103, R104), and
the steps that do nothing, of a faulted block (R107) and of an idle one (R112). -/

/-! ### The idle block -/

namespace Sys2Proof.Machine

variable {s : State}

/-- With nothing to emit and no operation in progress, a block that is busy, or has no request waiting, does nothing
(R112, R116). -/
theorem step_idle (hwf : s.cfg.wellFormed = true) (hf : s.faultValid = false) (he : s.emit = []) (hs : s.seq = .idle)
    (h : s.busy = true ∨ s.offered = []) : step s = .next s := by
  unfold step fetch
  rcases h with hb | ho
  · simp [hwf, hf, he, hs, hb]
  · cases hb : s.busy <;> simp [hwf, hf, he, hs, ho]

end Sys2Proof.Machine

/-! ### The steps that record a fault (R102, R103) -/

namespace Sys2Proof.Machine

variable {s t : State} {op : SeqOp} {k : Nat}

/-- The state `u` in which a step from `s` raises the fault `c`: only E_BUS comes with a change of the trace, the answer
of the failed frame (R82), and only E_SRC_RANGE with one of the framebuffer (R104). A field not given is one that holds by
computation, so `{}` stands for an update that names none of these. -/
structure FaultPoint (c : FaultCode) (s u : State) : Prop where
  code : c ≠ .none := by decide
  responses : u.responses = s.responses := by rfl
  context : SameContext s u := by exact ⟨rfl, rfl, rfl, rfl⟩
  fb : c ≠ .srcRange → u.fb = s.fb := by exact fun _ => rfl
  trace : c ≠ .bus → u.trace = s.trace := by exact fun _ => rfl
  failed : c = .bus → ∃ l e, s.trace = l ++ [e] ∧ u.trace = l ++ [{ e with answer := .fail }] := by exact nofun

/-- The step from `s` to `t` enters a fault (R103). -/
def FaultEntry (s t : State) : Prop := ∃ c u, FaultPoint c s u ∧ t = raiseFault c u

/-- A blit cut short (R104). -/
theorem faultEntry_srcRange (s : State) (fb : Memory) : FaultEntry s (raiseFault .srcRange { s with fb := fb }) :=
  ⟨_, _, { fb := fun h => absurd rfl h }, rfl⟩

/-- A frame the transport fails: its answer is recorded before the fault is raised (R82). -/
theorem faultEntry_bus (hw : awaiting s = true) : FaultEntry s (raiseFault .bus (busAnswer .fail (takeAnswer s))) := by
  obtain ⟨l, e, htrace, _⟩ := (awaiting_iff s).mp hw
  rw [busAnswer_takeAnswer htrace]
  exact ⟨_, _, { trace := fun h => absurd rfl h, failed := fun _ => ⟨l, e, htrace, rfl⟩ }, rfl⟩

/-- A `Send` records a fault only for a frame the transport fails (R82). -/
theorem faultEntry_sendStep {f : List WireByte} (hf : s.faultValid = false) (ht : (sendStep op k f s).faultValid = true) :
    FaultEntry s (sendStep op k f s) := by
  rcases sendStep_cases op k f s with ⟨_, _, h⟩ | ⟨_, _, h⟩ | ⟨hw, _, h⟩ | ⟨_, _, h⟩ | ⟨_, _, h⟩ <;> rw [h] at ht ⊢
  · simp [hf] at ht
  · simp [hf] at ht
  · exact faultEntry_bus hw
  · simp [hf] at ht
  · simp [hf] at ht

/-- A step of an operation records a fault only for a splash cut short and in a `Send`. -/
theorem faultEntry_seqStep (hf : s.faultValid = false) (h : seqStep op k s = .next t) (ht : t.faultValid = true) :
    FaultEntry s t := by
  rcases seqStep_cases h with ⟨_, _, rfl⟩ | ⟨_, _, _, fb, rfl, _⟩ | ⟨_, _, _, _, _, fb, _, rfl, _⟩ | ⟨_, _, g, _, rfl⟩ |
    ⟨f, _, _, _, rfl⟩
  · simp [hf] at ht
  · simp [hf] at ht
  · exact faultEntry_srcRange s fb
  · simp [hf] at ht
  · exact faultEntry_sendStep hf ht

/-- A request records a fault only for its colour, for the lifecycle state, and for a blit cut short. -/
theorem faultEntry_request {i : Instr} {q : RequestWord} (hi : encode i = .request q) (hf : s.faultValid = false)
    (h : exec i s = .next t) (ht : t.faultValid = true) : FaultEntry s t := by
  rcases request_cases hi h with ⟨c, rfl, hc⟩ | ⟨_, fb, v, rfl, _⟩ | ⟨_, fb, rfl, _⟩ | ⟨_, _, rfl⟩ | ⟨_, pm, _, rfl⟩
  · rcases hc with rfl | ⟨rfl, _⟩ | ⟨rfl, _⟩ <;> exact ⟨_, s, {}, rfl⟩
  · simp [hf] at ht
  · exact faultEntry_srcRange s fb
  · simp [hf] at ht
  · simp [hf] at ht

/-- A step that records a fault does so in the operation in progress or for the request it accepts (R63). -/
theorem faultEntry_step (h : step s = .next t) (ht : t.faultValid = true) : FaultEntry s t := by
  obtain ⟨_, hf, hbyte | ⟨_, op, k, _, hseq⟩ | ⟨_, _, _, rfl⟩ | ⟨_, _, _, q, rest, _, hreq⟩⟩ := step_cases h
  · obtain ⟨b, rest, _, ⟨_, _, rfl⟩ | ⟨_, rfl⟩⟩ := hbyte <;> simp [hf] at ht
  · exact faultEntry_seqStep hf hseq ht
  · simp [hf] at ht
  · rcases hreq with ⟨i, hd, hx⟩ | ⟨_, _, rfl⟩
    · obtain ⟨r, hr⟩ := decodeRequest_request hd
      obtain ⟨c, u, hpoint, rfl⟩ := faultEntry_request hr (by exact hf) hx ht
      exact ⟨c, u, { hpoint with }, rfl⟩
    · exact ⟨_, _, {}, rfl⟩

end Sys2Proof.Machine

/-! ### The statements -/

open Sys2Proof Sys2Proof.Machine

/-- Settles O48: the step enters the fault (`faultEntry_step`), and the fault entry changes FAULT, SEQ, BUSY and the
responses alone. -/
theorem faultEntryRecordsAndHalts : Obligations.FaultEntryRecordsAndHalts := by
  intro s t hstep ht
  obtain ⟨_, hf, _⟩ := step_cases hstep
  obtain ⟨c, u, ⟨hcode, hresponses, ⟨hlc, hvalid, hcontrast, hpwr⟩, hfb, htrace, hfailed⟩, rfl⟩ := faultEntry_step hstep ht
  refine ⟨hf, hcode, rfl, rfl, ?_, hlc, hvalid, hcontrast, hpwr, hfb, htrace, hfailed⟩
  rw [raiseFault_responses, hresponses, faultWord_eq_faultResponse, raiseFault_faultCode]

/-- Settles O10: a step with a next state has no fault recorded before it (`step_cases`). -/
theorem faultedBlockTakesNoStep : Obligations.FaultedBlockTakesNoStep := by
  intro s hfault t hstep
  obtain ⟨_, hf, _⟩ := step_cases hstep
  simp [hfault] at hf

/-- Settles O12: the fetch finds nothing to do (`step_idle`). -/
theorem idleBlockKeepsItsState : Obligations.IdleBlockKeepsItsState := by
  intro s hwf hf he hs ho
  exact step_idle hwf hf he hs (.inr ho)

end

section
/-! SUPPORT. Reset and the waiting request (spec/70_reset_and_hazards.md): the reset values (R113), the invariants they
meet, and what a step of a busy block does to the request port (R116). -/

/-! ### The request port of a busy block (R116) -/

namespace Sys2Proof.Machine

variable {s t : State}

/-- A step of a busy block takes no request; at most it ends the operation in progress, with its response. -/
theorem portStep_step (hb : s.busy = true) (hstep : step s = .next t) : PortStep s t := by
  obtain ⟨_, _, hbyte | ⟨_, op, k, _, hseq⟩ | ⟨_, _, _, rfl⟩ | ⟨_, _, hfree, _⟩⟩ := step_cases hstep
  · obtain ⟨b, rest, _, ⟨_, _, rfl⟩ | ⟨_, rfl⟩⟩ := hbyte <;> exact .inl {}
  · exact portStep_seqStep hseq
  · exact .inl {}
  · simp [hb] at hfree

theorem PortStep.offered_eq (h : PortStep s t) : t.offered = s.offered := by
  rcases h with hsame | ⟨hoffered, _⟩
  · exact hsame.offered
  · exact hoffered

/-- BUSY is cleared only with one response issued (R30). -/
theorem PortStep.response_of_cleared (h : PortStep s t) (hb : s.busy = true) (hclear : t.busy = false) :
    ∃ r, t.responses = s.responses ++ [r] := by
  rcases h with hsame | ⟨_, _, hresp⟩
  · simp [hsame.busy, hb] at hclear
  · exact hresp

end Sys2Proof.Machine

/-! ### The invariants before the first operation -/

namespace Sys2Proof.Machine

variable {s : State}

theorem memoryInv_of_empty (hfb : s.fb = []) (hsrc : s.src = []) : MemoryInv s := by
  simp [MemoryInv, hfb, hsrc, Memory.wf, Memory.below]

/-- A block that has not begun (R24), with no buffer, no operation in progress and no fault. -/
theorem controlInv_of_uninitialized (hlc : s.lc = .uninitialized) (hvalid : s.fbValid = false) (hs : s.seq = .idle)
    (hb : s.busy = false) (hf : s.faultValid = false) (hcode : s.faultCode = .none) : ControlInv s where
  fault := faultInv_of_clear hf hcode
  busy := by simp [BusyInv, hb, hs]
  sequencer := by simp [SequencerInv, hs, hlc]
  buffer := by simp [BufferInv, hvalid, hlc]

theorem traceInv_of_empty (h : s.trace = []) : TraceInv s := by
  simp [TraceInv, h]

theorem answeredInv_of_empty (h : s.trace = []) : AnsweredInv s := by
  simp [AnsweredInv, h]

end Sys2Proof.Machine

/-! ### The statements -/

open Sys2Proof Sys2Proof.Machine

/-- Settles O13: a step of a busy block keeps the port or issues the response that clears BUSY (`portStep_step`). -/
theorem requestOfferedWhileBusyWaits : Obligations.RequestOfferedWhileBusyWaits := by
  intro s t hb hstep
  have hport := portStep_step hb hstep
  exact ⟨hport.offered_eq, hport.response_of_cleared hb⟩

/-- Settles O47: each value is read off the reset state. -/
theorem resetValues : Obligations.ResetValues :=
  ⟨rfl, rfl, rfl, rfl, rfl, rfl, rfl, rfl⟩

/-- Settles O46: the control invariants by the reset values (R113), the others because the memories, the framer and the
trace of the reset state are empty. -/
theorem resetMeetsTheInvariants : Obligations.ResetMeetsTheInvariants := by
  obtain ⟨hlc, hvalid, _, hs, hb, hf, hcode, htrace⟩ := resetValues
  obtain ⟨hfault, hbusy, hsequencer, hbuffer⟩ := controlInv_of_uninitialized hlc hvalid hs hb hf hcode
  exact ⟨memoryInv_of_empty rfl rfl, hfault, hbusy, hsequencer, hbuffer, framerInv_empty rfl rfl,
    traceInv_of_empty htrace, answeredInv_of_empty htrace⟩

end
